-- ==== Sys2Proof/Word.lean ====
section
/-! DEFINITION. Words: the byte every register, memory cell, operand and ALU result is (R5), register numbers (R10), and the register array. -/

namespace Sys2Proof

/-- Every register, memory cell, operand byte and ALU result: 8 bits, unsigned (R5 `XLEN`, R121). -/
abbrev Byte := BitVec 8

/-- A register index that has passed the check of R74: 0 to 7. -/
abbrev Reg := Fin 8

/-- The eight general registers `x[0..7]` (R10). -/
abbrev Regs := Vector Byte 8

end Sys2Proof
end

