-- ==== Sys2Proof/Syntax.lean ====
section
/-! DEFINITION. The instruction set as syntax: the twenty mnemonics and `Instr`, one constructor per row of the opcode table (R54). -/

namespace Sys2Proof

/-- The twenty recognised mnemonics, in the order of R54: "these twenty mnemonics and no others". -/
inductive Mnemonic where
  | ldi | prn | hlt | add | mul | and | or | xor | not | shl | shr | mod | cmp
  | pop | push | call | ret | jmp | jeq | jne
  deriving DecidableEq, Repr

/-- The four formats of R51: no operand, one register, register and immediate, two registers. -/
inductive Format where
  | n | r | ri | rr
  deriving DecidableEq, Repr

/-- One instruction with its operand bytes as they stand in memory.
A register operand is a whole, unmasked byte (R56), so an operand above 7 can be written down here; the instruction's
meaning raises `InvalidRegisterIndex` for it (R74), and `Instr.wellFormed` refuses it. -/
inductive Instr where
  /-- LDI a, v: load immediate (R100). -/
  | ldi (a v : Byte)
  /-- PRN a: emit a register (R101). -/
  | prn (a : Byte)
  /-- HLT: halt (R102). -/
  | hlt
  /-- ADD a, b (R111). -/
  | add (a b : Byte)
  /-- MUL a, b (R112). -/
  | mul (a b : Byte)
  /-- AND a, b (R113). -/
  | and (a b : Byte)
  /-- OR a, b (R114). -/
  | or (a b : Byte)
  /-- XOR a, b (R115). -/
  | xor (a b : Byte)
  /-- NOT a, b: complement of the register `x[a]` points to (R116). -/
  | not (a b : Byte)
  /-- SHL a, b: computes and drops its result (R117). -/
  | shl (a b : Byte)
  /-- SHR a, b: computes and drops its result (R118). -/
  | shr (a b : Byte)
  /-- MOD a, b (R119). -/
  | mod (a b : Byte)
  /-- CMP a, b: the only writer of the flags (R120). -/
  | cmp (a b : Byte)
  /-- POP a (R131). -/
  | pop (a : Byte)
  /-- PUSH a (R132). -/
  | push (a : Byte)
  /-- CALL a (R141). -/
  | call (a : Byte)
  /-- RET (R142). -/
  | ret
  /-- JMP a (R143). -/
  | jmp (a : Byte)
  /-- JEQ a (R144). -/
  | jeq (a : Byte)
  /-- JNE a (R145). -/
  | jne (a : Byte)
  deriving DecidableEq, Repr

end Sys2Proof
end

