-- ==== Sys2Proof/Config.lean ====
section
/-! DEFINITION. Sizes the source fixes (R5) and the parameters a model takes (R6).
The DEFAULT of `OPCODE_MAP` and of `UNKNOWN_OPCODE_POLICY` is `defaultConfig` of Decode.lean. -/

namespace Sys2Proof

/-- `MEM_SIZE`: 256 cells (R5). -/
def memSize : Nat := 256

/-- `SP_INDEX`: register 7 is the stack pointer (R5, R13). -/
def spIndex : Reg := 7

/-- `SP_RESET` (R5). -/
def spReset : Byte := 0xF4

/-- `PC_RESET` (R5). -/
def pcReset : Byte := 0x00

/-- The two values of `UNKNOWN_OPCODE_POLICY` (R6): an unknown opcode ends the run (R162) or is fetched again for ever (R170). -/
inductive UnknownOpcodePolicy where
  | fatal | stall
  deriving DecidableEq, Repr

/-- The parameters of the machine (R6), fixed for a run. `IMAGE` is the argument of `Machine.boot`. -/
structure Config where
  /-- `OPCODE_MAP`: the opcode byte of each mnemonic. -/
  opcodeMap : Mnemonic → Byte
  /-- `UNKNOWN_OPCODE_POLICY`. -/
  unknownOpcodePolicy : UnknownOpcodePolicy

/-- R6: `OPCODE_MAP` is "an injective map from the 20 mnemonics to byte values". -/
def Config.Injective (c : Config) : Prop :=
  ∀ m m' : Mnemonic, c.opcodeMap m = c.opcodeMap m' → m = m'

end Sys2Proof
end

