-- ==== Sys2Proof/Machine/State.lean ====
section
/-! DEFINITION. The state of the machine (10_state.md), its fault and refusal reasons, and the state after reset (R24). -/

namespace Sys2Proof.Machine

/-- The three flag bits (R17): `E` equal, `G` greater-than, `L` less-than. -/
structure Flags where
  e : Bool
  g : Bool
  l : Bool
  deriving DecidableEq, Repr

/-- The run state (R19). -/
inductive RunState where
  | running | halted
  deriving DecidableEq, Repr

/-- The error cause (R20, R161). -/
inductive Cause where
  /-- Code 0: no fatal condition so far; also a clean halt. -/
  | none
  /-- Code 1: the byte at `pc` is not in `OPCODE_MAP` (R162). -/
  | unknownOpcode
  /-- Code 2: an operand byte, a successor or a return address above 255 (R163). -/
  | addressOutOfRange
  /-- Code 3: a register index above 7 (R164). -/
  | invalidRegisterIndex
  /-- Code 4: MOD with a zero divisor (R166). -/
  | divideByZero
  /-- Code 5: `alu_core` was given a select code of no operation (R167). -/
  | unsupportedAluOp
  deriving DecidableEq, Repr

/-- Why a step does not happen. A fatal condition of R161 is NOT one of these: it is taken, as a next state (R165). -/
inductive Fault where
  /-- Raised by `step` on a machine with `run = HALTED` whose `reset` input is 0: "a HALTED machine has no step" (R70, R77).
  Safe (log entry 3): the model stops where the hardware keeps its state unchanged. -/
  | halted
  deriving DecidableEq, Repr

/-- Why an instruction has no meaning. -/
inductive Refusal where
  /-- An arm of `exec` without a meaning. No arm answers with it. Safe. -/
  | notModelled (mnemonic : String)
  deriving DecidableEq, Repr

/-- The whole state of the machine (10_state.md) and the two inputs of the block that a step reads (R85). -/
structure State where
  /-- `x[0..7]`; `x[7]` is the stack pointer (R10, R13). -/
  regs : Regs
  /-- `E`, `G`, `L` (R17). -/
  flags : Flags
  /-- The program counter (R14). -/
  pc : Byte
  /-- `run` (R19). -/
  run : RunState
  /-- `err` (R20). -/
  err : Cause
  /-- `out`, the bytes emitted so far, oldest first (R22). -/
  out : List Byte
  /-- `M` (R23): the cells that do not hold 0, by rising address; an unlisted cell holds 0 (R24, R192). -/
  mem : List Host.Cell
  /-- The `reset` input as the host last drove it (R85, R190). -/
  resetIn : Bool
  /-- The `step_en` input as the host last drove it (R78, R85). -/
  stepEn : Bool
  deriving DecidableEq, Repr

/-- The state when the first step begins (R24), memory zeroed and no image loaded; `reset` released and `step_en` tied to 1
(DESIGN CHOICE, log entry 4, unsafe: the spec gives an input no value). -/
def State.reset : State where
  regs := #v[0, 0, 0, 0, 0, 0, 0, spReset]
  flags := { e := false, g := false, l := false }
  pc := pcReset
  run := .running
  err := .none
  out := []
  mem := []
  resetIn := false
  stepEn := true

end Sys2Proof.Machine
end

