-- ==== Sys2Proof/Machine/Ops.lean ====
section
/-! DEFINITION. The named operations over memory, registers, stack, output and program counter; taking a fatal condition (R165)
and, beside it, the only way out of HALTED: the block's reset (R172, R190). -/

namespace Sys2Proof.Machine

/-! ### Memory: a list of cells in one canonical form -/

/-- What an unlisted cell reads as: memory is "zero-initialized" (R24, R192). -/
def unlistedByte : Byte := 0

/-- The canonical form: addresses strictly rising, every address one of the 256 cells (R30), no cell listed that holds what an
unlisted one reads as. -/
abbrev Memory.wf (m : List Host.Cell) : Prop :=
  m.Pairwise (fun c d => c.1 < d.1) ∧ ∀ c ∈ m, c.1 < memSize ∧ c.2 ≠ unlistedByte

/-- The content of cell `a`. -/
def Memory.lookup : List Host.Cell → Nat → Byte
  | [], _ => unlistedByte
  | (k, v) :: m, a => if k = a then v else Memory.lookup m a

/-- The memory with cell `a` no longer listed. -/
def Memory.erase (m : List Host.Cell) (a : Nat) : List Host.Cell := m.filter fun c => decide (c.1 ≠ a)

/-- The memory with cell `a` listed in its place. -/
def Memory.insert : List Host.Cell → Nat → Byte → List Host.Cell
  | [], a, v => [(a, v)]
  | (k, w) :: m, a, v => if a < k then (a, v) :: (k, w) :: m else (k, w) :: Memory.insert m a v

/-- The memory after `M[a] <- v`, in canonical form. -/
def Memory.store (m : List Host.Cell) (a : Nat) (v : Byte) : List Host.Cell :=
  if v = unlistedByte then Memory.erase m a else Memory.insert (Memory.erase m a) a v

/-- `MemRead(addr, 1)` (R31): every 8-bit address is one of the 256 cells, so no read is out of range (R32). -/
def State.memRead (s : State) (a : Byte) : Byte := Memory.lookup s.mem a.toNat

/-- `MemWrite(addr, 1, v)` (R31). -/
def State.memWrite (s : State) (a v : Byte) : State := { s with mem := Memory.store s.mem a.toNat v }

/-- The bytes from `pc` to the top of memory, in ascending address order (R33): none above address 255 (R16). -/
def State.bytesFromPc (s : State) : List Byte :=
  (List.range (memSize - s.pc.toNat)).map fun k => s.memRead (BitVec.ofNat 8 (s.pc.toNat + k))

/-! ### Registers -/

/-- The value stored for an integer: `v mod 256`, the remainder non-negative (R12). -/
def truncate (v : Int) : Byte := BitVec.ofInt 8 v

/-- `set(i, v)` of the register file (R80): `x[i] <- v mod 256`, no other register changes. -/
def writeReg (x : Regs) (r : Reg) (v : Int) : Regs := x.set r.val (truncate v) r.isLt

/-- `get(i)` of the register file (R80). -/
def readReg (x : Regs) (r : Reg) : Byte := x[r.val]

/-- `x[i]` (R10). -/
def State.getReg (s : State) (r : Reg) : Byte := readReg s.regs r

/-- `x[i] <- v` for a byte `v` (R12). -/
def State.setReg (s : State) (r : Reg) (v : Byte) : State := { s with regs := writeReg s.regs r v.toNat }

/-! ### The stack (R130) -/

/-- `SP`, an alias of `x[7]` (R10, R13). -/
def State.sp (s : State) : Byte := s.getReg spIndex

/-- `x[7] <- (x[7] - 1) mod 256` (R132). -/
def State.decSp (s : State) : State := { s with regs := writeReg s.regs spIndex ((s.sp.toNat : Int) - 1) }

/-- `x[7] <- (x[7] + 1) mod 256` (R131). -/
def State.incSp (s : State) : State := { s with regs := writeReg s.regs spIndex ((s.sp.toNat : Int) + 1) }

/-- `MemRead(x[7], 1)`: the most recently pushed byte. -/
def State.stackTop (s : State) : Byte := s.memRead s.sp

/-- `MemWrite(x[7], 1, v)`, `x[7]` already decremented. -/
def State.writeTop (s : State) (v : Byte) : State := s.memWrite s.sp v

/-- The cell a push writes: the decremented `x[7]` (R38, R130). -/
def pushAddress (s : State) : Byte := s.decSp.sp

/-! ### Output -/

/-- `Emit(v)` (R22): append a byte to the output stream. -/
def State.emit (s : State) (v : Byte) : State := { s with out := s.out ++ [v] }

/-! ### The program counter multiplexer (R83) -/

/-- What `program_counter_mux` selects, with the value it selects from. -/
inductive PcSel where
  /-- No write. -/
  | hold
  /-- `pc + len`. -/
  | seq (len : Nat)
  /-- `x[a]`. -/
  | reg (v : Byte)
  /-- The byte RET read from the stack. -/
  | mem (v : Byte)
  deriving DecidableEq, Repr

/-- `program_counter_mux` (R83). -/
def nextPc (sel : PcSel) (pc : Byte) : Byte :=
  match sel with
  | .hold => pc
  | .seq len => truncate ((pc.toNat : Int) + len)
  | .reg v => v
  | .mem v => v

/-- The last action of a step that completes (R76): the one write of `pc`. -/
def State.commitPc (s : State) (sel : PcSel) : State := { s with pc := nextPc sel s.pc }

/-! ### Taking a fatal condition, and reset -/

/-- The state a fatal condition leaves (R165): `run <- HALTED`, `err <- cause`, nothing else. -/
def raiseFatal (cause : Cause) (s : State) : State := { s with run := .halted, err := cause }

/-- `raise Fatal(cause)`: the whole effect of the step (R165). -/
def trap (cause : Cause) (s : State) : Host.Outcome State Fault Refusal := .next (raiseFatal cause s)

/-- The `reset` input asserted (R190): every register of the block at its reset value and an empty output stream.
There is no return from a fatal condition but this (R172). Memory is the host's to prepare and is not written (D22); the inputs
are the host's to drive. -/
def State.blockReset (s : State) : State :=
  { State.reset with mem := s.mem, resetIn := s.resetIn, stepEn := s.stepEn }

/-! ### The host's moves on the inputs (R85) -/

/-- The host drives the `reset` input. -/
def State.driveReset (s : State) (level : Bool) : State := { s with resetIn := level }

/-- The host drives the `step_en` input (R78). -/
def State.driveStepEn (s : State) (level : Bool) : State := { s with stepEn := level }

end Sys2Proof.Machine
end

