-- ==== Sys2Proof/Machine/Flags.lean ====
section
/-! DEFINITION. The flag computation of CMP (R120), the flag byte (R18) and the cause codes (R161). -/

namespace Sys2Proof.Machine

/-- CMP's three flags (R120): exactly one is set, by unsigned comparison. -/
def compareFlags (p q : Byte) : Flags :=
  if p.toNat = q.toNat then { e := true, g := false, l := false }
  else if p.toNat > q.toNat then { e := false, g := true, l := false }
  else { e := false, g := false, l := true }

/-- At most one flag is 1 at any time (R17). -/
abbrev Flags.exclusive (f : Flags) : Prop :=
  ¬(f.e = true ∧ f.g = true) ∧ ¬(f.e = true ∧ f.l = true) ∧ ¬(f.g = true ∧ f.l = true)

/-- The flags as one byte, `0b00000LGE` (R18). PRESUMED (log entry 10): the layout is the spec's from general knowledge; display only. -/
def Flags.byte (f : Flags) : Byte :=
  (0 : BitVec 5) ++ BitVec.ofBool f.l ++ BitVec.ofBool f.g ++ BitVec.ofBool f.e

/-- The 3-bit code of a cause (R161). -/
def Cause.code : Cause → BitVec 3
  | .none => 0
  | .unknownOpcode => 1
  | .addressOutOfRange => 2
  | .invalidRegisterIndex => 3
  | .divideByZero => 4
  | .unsupportedAluOp => 5

end Sys2Proof.Machine
end

