-- ==== Sys2Proof/Decode.lean ====
section
/-! DEFINITION. The decoder, total on any bytes and rejecting by name, and after it the encoder, both from the tables of
30_encoding.md (R50 to R60); `instruction_decoder` of R79; the default opcode map (R54). -/

namespace Sys2Proof

/-- The recognised set, in the order of R54. -/
def allMnemonics : List Mnemonic :=
  [.ldi, .prn, .hlt, .add, .mul, .and, .or, .xor, .not, .shl, .shr, .mod, .cmp,
    .pop, .push, .call, .ret, .jmp, .jeq, .jne]

/-- The default `OPCODE_MAP` of R54.
PRESUMED (log entry 1, unsafe): the source gives no opcode value; the spec supplies these from general knowledge. -/
def defaultOpcodeMap : Mnemonic → Byte
  | .ldi => 0x82
  | .prn => 0x47
  | .hlt => 0x01
  | .add => 0xA0
  | .mul => 0xA2
  | .and => 0xA8
  | .or => 0xAA
  | .xor => 0xAB
  | .not => 0x69
  | .shl => 0xAC
  | .shr => 0xAD
  | .mod => 0xA4
  | .cmp => 0xA7
  | .pop => 0x46
  | .push => 0x45
  | .call => 0x50
  | .ret => 0x11
  | .jmp => 0x54
  | .jeq => 0x55
  | .jne => 0x56

/-- The parameter values of R6. DESIGN CHOICE (log entry 2, unsafe): `UNKNOWN_OPCODE_POLICY` at the spec's default, `fatal`. -/
def defaultConfig : Config where
  opcodeMap := defaultOpcodeMap
  unknownOpcodePolicy := .fatal

/-- The other value of `UNKNOWN_OPCODE_POLICY` (R170), the opcode map at its default. -/
def stallConfig : Config where
  opcodeMap := defaultOpcodeMap
  unknownOpcodePolicy := .stall

/-- The format of each mnemonic (R51). -/
def Mnemonic.format : Mnemonic → Format
  | .hlt => .n
  | .ret => .n
  | .prn => .r
  | .pop => .r
  | .push => .r
  | .call => .r
  | .jmp => .r
  | .jeq => .r
  | .jne => .r
  | .ldi => .ri
  | .add => .rr
  | .mul => .rr
  | .and => .rr
  | .or => .rr
  | .xor => .rr
  | .not => .rr
  | .shl => .rr
  | .shr => .rr
  | .mod => .rr
  | .cmp => .rr

/-- The bytes of a format (R51). -/
def Format.len : Format → Nat
  | .n => 1
  | .r => 2
  | .ri => 3
  | .rr => 3

/-- The length of each instruction (R52): taken from the mnemonic through its format, never from bits of the opcode (R53). -/
def Mnemonic.len (m : Mnemonic) : Nat := m.format.len

/-- R72: the mnemonic an opcode byte denotes, by a lookup of the whole byte; `none` is `Unknown` (R58). -/
def decodeOpcode (c : Config) (ir : Byte) : Option Mnemonic :=
  allMnemonics.find? fun m => decide (c.opcodeMap m = ir)

/-- The ten operations of `alu_core` (R81). -/
inductive AluOp where
  | add | mul | and | or | xor | not | shl | shr | mod | cmp
  deriving DecidableEq, Repr

/-- The ALU operation of the ten ALU mnemonics (R79). -/
def Mnemonic.aluOp : Mnemonic → Option AluOp
  | .ldi => none
  | .prn => none
  | .hlt => none
  | .add => some .add
  | .mul => some .mul
  | .and => some .and
  | .or => some .or
  | .xor => some .xor
  | .not => some .not
  | .shl => some .shl
  | .shr => some .shr
  | .mod => some .mod
  | .cmp => some .cmp
  | .pop => none
  | .push => none
  | .call => none
  | .ret => none
  | .jmp => none
  | .jeq => none
  | .jne => none

/-- What `instruction_decoder` answers when `known = 1` (R79): mnemonic, format, length and ALU operation. -/
structure Decoded where
  mnemonic : Mnemonic
  format : Format
  len : Nat
  aluOp : Option AluOp
  deriving DecidableEq, Repr

/-- `instruction_decoder` (R79): a pure function of the opcode byte; `none` is `known = 0`. -/
def instructionDecoder (c : Config) (ir : Byte) : Option Decoded :=
  (decodeOpcode c ir).map fun m =>
    { mnemonic := m, format := m.format, len := m.len, aluOp := m.aluOp }

/-- The instruction of a mnemonic and the operand bytes `a`, `b` of the step (R70); LDI's `v` is the step's `b` (R100).
A mnemonic of a shorter format does not look at the bytes it has not. -/
def assemble (m : Mnemonic) (a b : Byte) : Instr :=
  match m with
  | .ldi => .ldi a b
  | .prn => .prn a
  | .hlt => .hlt
  | .add => .add a b
  | .mul => .mul a b
  | .and => .and a b
  | .or => .or a b
  | .xor => .xor a b
  | .not => .not a b
  | .shl => .shl a b
  | .shr => .shr a b
  | .mod => .mod a b
  | .cmp => .cmp a b
  | .pop => .pop a
  | .push => .push a
  | .call => .call a
  | .ret => .ret
  | .jmp => .jmp a
  | .jeq => .jeq a
  | .jne => .jne a

/-- What the decoder answers on a list of bytes: an instruction and the bytes after it, or a rejection by name. -/
inductive DecodeResult where
  /-- An instruction, and the bytes that follow it. -/
  | ok (i : Instr) (rest : List Byte)
  /-- The first byte is outside `OPCODE_MAP` (R58); nothing after it was looked at. -/
  | unknownOpcode (ir : Byte)
  /-- The opcode is known and an operand byte is missing. -/
  | truncated (m : Mnemonic)
  /-- There is no byte at all. -/
  | empty
  deriving DecidableEq, Repr

/-- The decoder on bytes in ascending address order (R33, R50): total, and every rejection has a name. -/
def decode (c : Config) : List Byte → DecodeResult
  | [] => .empty
  | ir :: rest =>
    match decodeOpcode c ir with
    | none => .unknownOpcode ir
    | some m =>
      match m.format, rest with
      | .n, rest => .ok (assemble m 0 0) rest
      | .r, a :: rest => .ok (assemble m a 0) rest
      | .ri, a :: v :: rest => .ok (assemble m a v) rest
      | .rr, a :: b :: rest => .ok (assemble m a b) rest
      | _, _ => .truncated m

/-- The mnemonic of an instruction. -/
def Instr.mnemonic : Instr → Mnemonic
  | .ldi _ _ => .ldi
  | .prn _ => .prn
  | .hlt => .hlt
  | .add _ _ => .add
  | .mul _ _ => .mul
  | .and _ _ => .and
  | .or _ _ => .or
  | .xor _ _ => .xor
  | .not _ _ => .not
  | .shl _ _ => .shl
  | .shr _ _ => .shr
  | .mod _ _ => .mod
  | .cmp _ _ => .cmp
  | .pop _ => .pop
  | .push _ => .push
  | .call _ => .call
  | .ret => .ret
  | .jmp _ => .jmp
  | .jeq _ => .jeq
  | .jne _ => .jne

/-- The operand bytes of an instruction, in ascending address order (R51). -/
def Instr.operands : Instr → List Byte
  | .ldi a v => [a, v]
  | .prn a => [a]
  | .hlt => []
  | .add a b => [a, b]
  | .mul a b => [a, b]
  | .and a b => [a, b]
  | .or a b => [a, b]
  | .xor a b => [a, b]
  | .not a b => [a, b]
  | .shl a b => [a, b]
  | .shr a b => [a, b]
  | .mod a b => [a, b]
  | .cmp a b => [a, b]
  | .pop a => [a]
  | .push a => [a]
  | .call a => [a]
  | .ret => []
  | .jmp a => [a]
  | .jeq a => [a]
  | .jne a => [a]

/-- The encoder: the bytes of an instruction (R51), opcode first. -/
def encode (c : Config) (i : Instr) : List Byte := c.opcodeMap i.mnemonic :: i.operands

/-- Byte `k` of a table word of `nbits` bits: bits 7:0 are the byte at the lowest address; every bit from `nbits` on is 0. -/
def tableByte (nbits w k : Nat) : Byte := BitVec.ofNat 8 ((w % 2 ^ nbits) / 2 ^ (8 * k))

/-- The three bytes of a table word, the longest instruction's length (R50), in ascending address order (R33). -/
def tableBytes (nbits w : Nat) : List Byte := [tableByte nbits w 0, tableByte nbits w 1, tableByte nbits w 2]

/-- The instruction the decoder reads from a table word laid out in memory, under the default opcode map. -/
def decodeTableWord (nbits w : Nat) : Option Instr :=
  match decode defaultConfig (tableBytes nbits w) with
  | .ok i _ => some i
  | .unknownOpcode _ => none
  | .truncated _ => none
  | .empty => none

end Sys2Proof
end

