-- ==== Sys2Proof/Machine/Operands.lean ====
section
/-! DEFINITION. The checks every instruction makes on its place in memory and on its operand bytes, before it writes anything
(R70 steps 3 and 5, R73, R74), and the operand forms they pass on. -/

namespace Sys2Proof.Machine

/-- How far above `pc` the instruction needs an address or a `pc` value (R73): its last operand byte, and its sequential
successor (or CALL's return address) where it needs one. -/
def reach (m : Mnemonic) (e : Bool) : Nat :=
  match m with
  | .hlt => 0
  | .ret => 0
  | .jmp => 1
  | .jeq => if e then 1 else 2
  | .jne => if e then 2 else 1
  | .prn => 2
  | .pop => 2
  | .push => 2
  | .call => 2
  | .ldi => 3
  | .add => 3
  | .mul => 3
  | .and => 3
  | .or => 3
  | .xor => 3
  | .not => 3
  | .shl => 3
  | .shr => 3
  | .mod => 3
  | .cmp => 3

/-- `AddressFault(m, E, pc)` (R73): some address or `pc` value the instruction needs is above 255. -/
def addressFault (m : Mnemonic) (e : Bool) (pc : Byte) : Bool := decide (memSize ≤ pc.toNat + reach m e)

/-- Step 3 of the step (R70): `AddressOutOfRange`, or go on. -/
def checkAddress (m : Mnemonic) (s : State) (k : Host.Outcome State Fault Refusal) :
    Host.Outcome State Fault Refusal :=
  if addressFault m s.flags.e s.pc then trap .addressOutOfRange s else k

/-- Step 5 of the step (R74): an operand byte in a register position is a register, or `InvalidRegisterIndex`; never masked (R56). -/
def withReg (b : Byte) (s : State) (k : Reg → Host.Outcome State Fault Refusal) :
    Host.Outcome State Fault Refusal :=
  if h : b.toNat < 8 then k ⟨b.toNat, h⟩ else trap .invalidRegisterIndex s

/-- Format R (R51): the address check, then `a`. -/
def formatR (m : Mnemonic) (a : Byte) (s : State) (k : Reg → Host.Outcome State Fault Refusal) :
    Host.Outcome State Fault Refusal :=
  checkAddress m s (withReg a s k)

/-- Format RR (R51): the address check, then `a`, then `b` (R74). -/
def formatRR (m : Mnemonic) (a b : Byte) (s : State) (k : Reg → Reg → Host.Outcome State Fault Refusal) :
    Host.Outcome State Fault Refusal :=
  checkAddress m s (withReg a s fun ra => withReg b s fun rb => k ra rb)

/-- The end of a sequential instruction: `pc <- pc + len` (R76), which the address check has shown to be at most 255. -/
def advance (m : Mnemonic) (s : State) : Host.Outcome State Fault Refusal := .next (s.commitPc (.seq m.len))

end Sys2Proof.Machine
end

