-- ==== Sys2Proof/Machine/Alu.lean ====
section
/-! DEFINITION. `alu_core` (R81, R82) and the meanings of the ten ALU instructions (R110 to R123). -/

namespace Sys2Proof.Machine

/-- What `alu_core` answers (R81). -/
inductive AluResult where
  /-- `Ok(x', FL')`. -/
  | ok (x : Regs) (fl : Flags)
  /-- `Err(cause)`. -/
  | err (cause : Cause)
  deriving DecidableEq, Repr

/-- The ten operations `alu_core` supports. -/
def allAluOps : List AluOp := [.add, .mul, .and, .or, .xor, .not, .shl, .shr, .mod, .cmp]

/-- The select code of an operation (R82). PRESUMED (log entry 10): built on the general-knowledge opcode values. -/
def aluSelect : AluOp → BitVec 4
  | .add => 0b0000
  | .mul => 0b0010
  | .mod => 0b0100
  | .cmp => 0b0111
  | .and => 0b1000
  | .not => 0b1001
  | .or => 0b1010
  | .xor => 0b1011
  | .shl => 0b1100
  | .shr => 0b1101

/-- The operation a select code stands for; `none` for the six unsupported codes (R82). -/
def aluOpOf (sel : BitVec 4) : Option AluOp := allAluOps.find? fun op => decide (aluSelect op = sel)

/-- ADD (R111): exact over the integers, then modulo 256. -/
def aluAdd (a b : Reg) (x : Regs) (fl : Flags) : AluResult :=
  .ok (writeReg x a ((readReg x a).toNat + (readReg x b).toNat)) fl

/-- MUL (R112): the low 8 bits of the product. -/
def aluMul (a b : Reg) (x : Regs) (fl : Flags) : AluResult :=
  .ok (writeReg x a ((readReg x a).toNat * (readReg x b).toNat)) fl

/-- AND (R113). -/
def aluAnd (a b : Reg) (x : Regs) (fl : Flags) : AluResult :=
  .ok (writeReg x a (readReg x a &&& readReg x b).toNat) fl

/-- OR (R114). -/
def aluOr (a b : Reg) (x : Regs) (fl : Flags) : AluResult :=
  .ok (writeReg x a (readReg x a ||| readReg x b).toNat) fl

/-- XOR (R115). -/
def aluXor (a b : Reg) (x : Regs) (fl : Flags) : AluResult :=
  .ok (writeReg x a (readReg x a ^^^ readReg x b).toNat) fl

/-- NOT (R116): the register `x[a]` points to is complemented, `-v - 1` truncated to 8 bits; a pointer above 7 is fatal. -/
def aluNot (a : Reg) (x : Regs) (fl : Flags) : AluResult :=
  if h : (readReg x a).toNat < 8 then
    .ok (writeReg x ⟨(readReg x a).toNat, h⟩ (-((readReg x ⟨(readReg x a).toNat, h⟩).toNat : Int) - 1)) fl
  else .err .invalidRegisterIndex

/-- SHL (R117): the shifted value is computed and dropped. -/
def aluShl (x : Regs) (fl : Flags) : AluResult := .ok x fl

/-- SHR (R118): the shifted value is computed and dropped. -/
def aluShr (x : Regs) (fl : Flags) : AluResult := .ok x fl

/-- MOD (R119): unsigned remainder; a zero divisor is fatal. -/
def aluMod (a b : Reg) (x : Regs) (fl : Flags) : AluResult :=
  if (readReg x b).toNat = 0 then .err .divideByZero
  else .ok (writeReg x a ((readReg x a).toNat % (readReg x b).toNat : Nat)) fl

/-- CMP (R120): all three flags, no register. -/
def aluCmp (a b : Reg) (x : Regs) : AluResult := .ok x (compareFlags (readReg x a) (readReg x b))

/-- One operation of `alu_core`. -/
def aluApply (op : AluOp) (a b : Reg) (x : Regs) (fl : Flags) : AluResult :=
  match op with
  | .add => aluAdd a b x fl
  | .mul => aluMul a b x fl
  | .and => aluAnd a b x fl
  | .or => aluOr a b x fl
  | .xor => aluXor a b x fl
  | .not => aluNot a x fl
  | .shl => aluShl x fl
  | .shr => aluShr x fl
  | .mod => aluMod a b x fl
  | .cmp => aluCmp a b x

/-- `Alu(op, a, b, x, FL)` (R81) on a select code; a code of no operation answers `Err(UnsupportedAluOp)` (R82, R123). -/
def aluCore (sel : BitVec 4) (a b : Reg) (x : Regs) (fl : Flags) : AluResult :=
  match aluOpOf sel with
  | none => .err .unsupportedAluOp
  | some op => aluApply op a b x fl

/-- R81: on `Err` the loop raises the fatal condition; on `Ok` it commits `x'` and `FL'` and advances `pc`. -/
def commitAlu (m : Mnemonic) (r : AluResult) (s : State) : Host.Outcome State Fault Refusal :=
  match r with
  | .err cause => trap cause s
  | .ok x fl => advance m { s with regs := x, flags := fl }

/-- What is common to the ten (R110): format RR, the checks, then `alu_core` with the mnemonic's select code. -/
def execAlu (m : Mnemonic) (op : AluOp) (a b : Byte) (s : State) : Host.Outcome State Fault Refusal :=
  formatRR m a b s fun ra rb => commitAlu m (aluCore (aluSelect op) ra rb s.regs s.flags) s

/-- ADD a, b (R111). -/
def execAdd (a b : Byte) (s : State) : Host.Outcome State Fault Refusal := execAlu .add .add a b s

/-- MUL a, b (R112). -/
def execMul (a b : Byte) (s : State) : Host.Outcome State Fault Refusal := execAlu .mul .mul a b s

/-- AND a, b (R113). -/
def execAnd (a b : Byte) (s : State) : Host.Outcome State Fault Refusal := execAlu .and .and a b s

/-- OR a, b (R114). -/
def execOr (a b : Byte) (s : State) : Host.Outcome State Fault Refusal := execAlu .or .or a b s

/-- XOR a, b (R115). -/
def execXor (a b : Byte) (s : State) : Host.Outcome State Fault Refusal := execAlu .xor .xor a b s

/-- NOT a, b (R116): `b` is range-checked and otherwise unused. -/
def execNot (a b : Byte) (s : State) : Host.Outcome State Fault Refusal := execAlu .not .not a b s

/-- SHL a, b (R117). -/
def execShl (a b : Byte) (s : State) : Host.Outcome State Fault Refusal := execAlu .shl .shl a b s

/-- SHR a, b (R118). -/
def execShr (a b : Byte) (s : State) : Host.Outcome State Fault Refusal := execAlu .shr .shr a b s

/-- MOD a, b (R119). -/
def execMod (a b : Byte) (s : State) : Host.Outcome State Fault Refusal := execAlu .mod .mod a b s

/-- CMP a, b (R120). -/
def execCmp (a b : Byte) (s : State) : Host.Outcome State Fault Refusal := execAlu .cmp .cmp a b s

end Sys2Proof.Machine
end

