-- ==== Sys2Proof/Machine/Control.lean ====
section
/-! DEFINITION. The meanings of CALL, RET, JMP, JEQ and JNE (44_control_transfer.md): every target is an absolute byte (R140). -/

namespace Sys2Proof.Machine

/-- CALL's return address, `pc + 2` (R141); the address check has shown it to be at most 255. -/
def returnAddress (s : State) : Byte := nextPc (.seq Mnemonic.call.len) s.pc

/-- The state after CALL's push of the return address. -/
def pushReturn (s : State) : State := s.decSp.writeTop (returnAddress s)

/-- CALL a (R141): push the return address, then jump to `x[a]`, read after the push. -/
def execCall (a : Byte) (s : State) : Host.Outcome State Fault Refusal :=
  formatR .call a s fun ra => .next ((pushReturn s).commitPc (.reg ((pushReturn s).getReg ra)))

/-- RET (R142): read the top of the stack, increment `x[7]`, jump to the byte read. -/
def execRet (s : State) : Host.Outcome State Fault Refusal :=
  checkAddress .ret s (.next (s.incSp.commitPc (.mem s.stackTop)))

/-- JMP a (R143): a plain jump; the run goes on. -/
def execJmp (a : Byte) (s : State) : Host.Outcome State Fault Refusal :=
  formatR .jmp a s fun ra => .next (s.commitPc (.reg (s.getReg ra)))

/-- JEQ a (R144): taken when `E = 1`. -/
def execJeq (a : Byte) (s : State) : Host.Outcome State Fault Refusal :=
  formatR .jeq a s fun ra => if s.flags.e then .next (s.commitPc (.reg (s.getReg ra))) else advance .jeq s

/-- JNE a (R145): taken when `E = 0`. -/
def execJne (a : Byte) (s : State) : Host.Outcome State Fault Refusal :=
  formatR .jne a s fun ra => if s.flags.e then advance .jne s else .next (s.commitPc (.reg (s.getReg ra)))

end Sys2Proof.Machine
end

