-- ==== Sys2Proof/Machine/LoadPrintHalt.lean ====
section
/-! DEFINITION. The meanings of LDI, PRN and HLT (41_load_print_halt.md). -/

namespace Sys2Proof.Machine

/-- LDI a, v (R100): `x[a] <- v`; the immediate is used as read (R57). -/
def execLdi (a v : Byte) (s : State) : Host.Outcome State Fault Refusal :=
  formatR .ldi a s fun ra => advance .ldi (s.setReg ra v)

/-- PRN a (R101): emit the raw byte of `x[a]`. -/
def execPrn (a : Byte) (s : State) : Host.Outcome State Fault Refusal :=
  formatR .prn a s fun ra => advance .prn (s.emit (s.getReg ra))

/-- HLT (R102): `run <- HALTED`; `err` stays, `pc` is not written (D10). -/
def execHlt (s : State) : Host.Outcome State Fault Refusal :=
  checkAddress .hlt s (.next (({ s with run := .halted } : State).commitPc .hold))

end Sys2Proof.Machine
end

