-- ==== Sys2Proof/Machine/Stack.lean ====
section
/-! DEFINITION. The meanings of POP and PUSH (43_stack.md): the sub-operations in the order of the text, each seeing the writes
before it (R131 to R133). -/

namespace Sys2Proof.Machine

/-- POP a (R131): write `x[a]`, then increment `x[7]`. -/
def execPop (a : Byte) (s : State) : Host.Outcome State Fault Refusal :=
  formatR .pop a s fun ra => advance .pop (s.setReg ra s.stackTop).incSp

/-- PUSH a (R132): decrement `x[7]`, then store `x[a]`, read after the decrement. -/
def execPush (a : Byte) (s : State) : Host.Outcome State Fault Refusal :=
  formatR .push a s fun ra => advance .push (s.decSp.writeTop (s.decSp.getReg ra))

end Sys2Proof.Machine
end

