-- ==== Sys2Proof/Machine/Loop.lean ====
section
/-! DEFINITION. The execution loop: fetch and decode (R70 to R72), the unknown-opcode policy (R162, R170), the step under any
parameters, the run (R77), loading an image (R192, R193) and placing one instruction for the next fetch. -/

namespace Sys2Proof.Machine

/-- What steps 1 to 4 of the step (R70) come to. -/
inductive Fetched where
  /-- Step 2: the byte at `pc` is unknown. -/
  | unknown
  /-- Step 3: the address check failed; no operand byte was read. -/
  | outOfRange
  /-- Step 4: the instruction with its operand bytes. -/
  | instr (i : Instr)
  deriving DecidableEq, Repr

/-- The byte at `pc + k` (R70 step 4), read only where the address check has shown `pc + k` to be at most 255. -/
def operandByte (s : State) (k : Nat) : Byte := s.memRead (truncate ((s.pc.toNat : Int) + k))

/-- The operand bytes of a format, read at `pc + 1` and `pc + 2` (R51, R70 step 4): only as many as the format has. -/
def fetchOperands (m : Mnemonic) (s : State) : Instr :=
  match m.format with
  | .n => assemble m 0 0
  | .r => assemble m (operandByte s 1) 0
  | .ri => assemble m (operandByte s 1) (operandByte s 2)
  | .rr => assemble m (operandByte s 1) (operandByte s 2)

/-- Steps 1 to 4 of the step (R70): fetch the opcode, decode, check the addresses, fetch the operands. -/
def fetch (c : Config) (s : State) : Fetched :=
  match decodeOpcode c (s.memRead s.pc) with
  | none => .unknown
  | some m => if addressFault m s.flags.e s.pc then .outOfRange else .instr (fetchOperands m s)

/-- An unknown opcode: fatal (R162), or no state change at all (R170). -/
def unknownOpcodeStep (c : Config) (s : State) : Host.Outcome State Fault Refusal :=
  match c.unknownOpcodePolicy with
  | .fatal => trap .unknownOpcode s
  | .stall => .next s

/-- `Step()` of a RUNNING machine (R70). -/
def stepRunning (c : Config) (s : State) : Host.Outcome State Fault Refusal :=
  match fetch c s with
  | .unknown => unknownOpcodeStep c s
  | .outOfRange => trap .addressOutOfRange s
  | .instr i => exec i s

/-- The block takes a step from `s`: `reset` 0, RUNNING, `step_en` 1 (R70, R78, R190). -/
abbrev State.Ready (s : State) : Prop := s.resetIn = false ∧ s.run = .running ∧ s.stepEn = true

/-- One move of the block under parameters `c`: `reset` asserted resets it (R190); a HALTED machine has no step (R77); with
`step_en = 0` nothing changes (R78); else one step. DEDUCED (log entry 5, unsafe): the order of the first three. -/
def stepWith (c : Config) (s : State) : Host.Outcome State Fault Refusal :=
  if s.resetIn then .next s.blockReset
  else
    match s.run with
    | .halted => .fault .halted
    | .running => if s.stepEn then stepRunning c s else .next s

/-- `Run()` (R77) under fuel: steps while the machine is RUNNING, at most `n` of them. -/
def runWith (c : Config) : Nat → State → State
  | 0, s => s
  | n + 1, s =>
    match s.run, stepWith c s with
    | .running, .next t => runWith c n t
    | _, _ => s

/-- One move of the block after the host has driven `step_en` to a level (R78). A HALTED machine has no step and stays as it is. -/
def gatedMove (c : Config) (level : Bool) (s : State) : State :=
  match stepWith c (s.driveStepEn level) with
  | .next t => t
  | .fault _ => s.driveStepEn level
  | .refused _ => s.driveStepEn level

/-- Stepping under the host's control (R78): one move for each level the host drives `step_en` to, in order. -/
def gatedRun (c : Config) : List Bool → State → State
  | [], s => s
  | level :: levels, s => gatedRun c levels (gatedMove c level s)

/-- The memory after bytes are written from address `a` upward, none above the last cell. -/
def storeBytes (m : List Host.Cell) (a : Nat) : List Byte → List Host.Cell
  | [] => m
  | v :: vs => if a < memSize then storeBytes (Memory.store m a v) (a + 1) vs else m

/-- The host's preparation of a run (R192, R193): memory zeroed, `IMAGE` at addresses 0 upward, reset released.
`none` for more than 256 bytes: no run is defined (R193, D19). -/
def boot (image : List Byte) : Option State :=
  if image.length ≤ memSize then some { State.reset with mem := storeBytes [] 0 image } else none

/-- The state with `bytes` placed at `pc` upward (none above address 255) and the machine RUNNING with `reset` 0 and `step_en` 1:
what the next fetch needs (log entry 7). -/
def placeAtPc (bytes : List Byte) (s : State) : State :=
  { s with mem := storeBytes s.mem s.pc.toNat bytes, run := .running, resetIn := false, stepEn := true }

end Sys2Proof.Machine
end

