-- ==== Sys2Proof/Machine/Step.lean ====
section
/-! DEFINITION. The step under the spec's parameter values, and the state with one table word placed for it. -/

namespace Sys2Proof.Machine

/-- One move of the machine, under the parameter values of R6. -/
def step (s : State) : Host.Outcome State Fault Refusal := stepWith defaultConfig s

/-- `s` with the instruction of a table word stored where `step` fetches next (log entry 7). -/
def State.withFetchWord (s : State) (nbits w : Nat) : State := placeAtPc (tableBytes nbits w) s

end Sys2Proof.Machine
end

