-- ==== Sys2Proof/WellFormed.lean ====
section
/-! DEFINITION. Which instructions are well formed: every register operand is an index 0 to 7 (R51, R56). -/

namespace Sys2Proof

/-- An operand byte in a register position must be 0 to 7 (R56). -/
def isRegisterIndex (b : Byte) : Bool := decide (b.toNat ≤ 7)

/-- R51, R56: `a` in formats R, RI, RR and `b` in format RR are register positions, used or not; LDI's `v` is any byte. -/
def Instr.wellFormed : Instr → Bool
  | .ldi a _ => isRegisterIndex a
  | .prn a => isRegisterIndex a
  | .hlt => true
  | .add a b => isRegisterIndex a && isRegisterIndex b
  | .mul a b => isRegisterIndex a && isRegisterIndex b
  | .and a b => isRegisterIndex a && isRegisterIndex b
  | .or a b => isRegisterIndex a && isRegisterIndex b
  | .xor a b => isRegisterIndex a && isRegisterIndex b
  | .not a b => isRegisterIndex a && isRegisterIndex b
  | .shl a b => isRegisterIndex a && isRegisterIndex b
  | .shr a b => isRegisterIndex a && isRegisterIndex b
  | .mod a b => isRegisterIndex a && isRegisterIndex b
  | .cmp a b => isRegisterIndex a && isRegisterIndex b
  | .pop a => isRegisterIndex a
  | .push a => isRegisterIndex a
  | .call a => isRegisterIndex a
  | .ret => true
  | .jmp a => isRegisterIndex a
  | .jeq a => isRegisterIndex a
  | .jne a => isRegisterIndex a

end Sys2Proof
end

