-- ==== Sys2Proof/Machine/Ports.lean ====
section
/-! DEFINITION. What crosses the edge of the block in one step, as events and values (R84, R85): the memory transactions of R38,
the output event; and the status interface (R86). Functions of the state the step starts from; nothing here is state. -/

namespace Sys2Proof.Machine

/-- One memory transaction (R84): `mem_we = 0` with `mem_addr` and `mem_rdata`, or `mem_we = 1` with `mem_addr` and `mem_wdata`. -/
inductive BusTxn where
  | read (addr rdata : Byte)
  | write (addr wdata : Byte)
  deriving DecidableEq, Repr

/-- The read of the cell at `addr`. -/
def readTxn (s : State) (addr : Byte) : BusTxn := .read addr (s.memRead addr)

/-- The reads of the operand bytes (R38): as many as the format has. -/
def operandReads (m : Mnemonic) (s : State) : List BusTxn :=
  match m.format with
  | .n => []
  | .r => [readTxn s (nextPc (.seq 1) s.pc)]
  | .ri => [readTxn s (nextPc (.seq 1) s.pc), readTxn s (nextPc (.seq 2) s.pc)]
  | .rr => [readTxn s (nextPc (.seq 1) s.pc), readTxn s (nextPc (.seq 2) s.pc)]

/-- The byte PUSH stores from the register its operand names. -/
def pushedByte (a : Byte) (s : State) : Byte :=
  if h : a.toNat < 8 then s.decSp.getReg ⟨a.toNat, h⟩ else unlistedByte

/-- The stack access of an instruction that passed its checks (R38). -/
def dataTxns (i : Instr) (s : State) : List BusTxn :=
  match i with
  | .ldi _ _ => []
  | .prn _ => []
  | .hlt => []
  | .add _ _ => []
  | .mul _ _ => []
  | .and _ _ => []
  | .or _ _ => []
  | .xor _ _ => []
  | .not _ _ => []
  | .shl _ _ => []
  | .shr _ _ => []
  | .mod _ _ => []
  | .cmp _ _ => []
  | .pop _ => [readTxn s s.sp]
  | .push a => [.write (pushAddress s) (pushedByte a s)]
  | .call _ => [.write (pushAddress s) (returnAddress s)]
  | .ret => [readTxn s s.sp]
  | .jmp _ => []
  | .jeq _ => []
  | .jne _ => []

/-- The memory transactions of the step from `s`, in order (R38, R84): the opcode; after the address check the operands; after the
index check the stack access. -/
def busOf (c : Config) (s : State) : List BusTxn :=
  if s.Ready then
    readTxn s s.pc ::
      match fetch c s with
      | .unknown => []
      | .outOfRange => []
      | .instr i => operandReads i.mnemonic s ++ if i.wellFormed then dataTxns i s else []
  else []

/-- Memory after one transaction. -/
def applyTxn (m : List Host.Cell) : BusTxn → List Host.Cell
  | .read _ _ => m
  | .write addr wdata => Memory.store m addr.toNat wdata

/-- The byte an instruction emits once it has passed its checks: PRN's register (R101). -/
def emittedBy (i : Instr) (s : State) : Option Byte :=
  match i with
  | .ldi _ _ => none
  | .prn a => if h : a.toNat < 8 then some (s.getReg ⟨a.toNat, h⟩) else none
  | .hlt => none
  | .add _ _ => none
  | .mul _ _ => none
  | .and _ _ => none
  | .or _ _ => none
  | .xor _ _ => none
  | .not _ _ => none
  | .shl _ _ => none
  | .shr _ _ => none
  | .mod _ _ => none
  | .cmp _ _ => none
  | .pop _ => none
  | .push _ => none
  | .call _ => none
  | .ret => none
  | .jmp _ => none
  | .jeq _ => none
  | .jne _ => none

/-- The output event of the step from `s` (R85): `out_valid` with `out_data`, once per executed PRN. -/
def outEvent (c : Config) (s : State) : Option Byte :=
  if s.Ready then
    match fetch c s with
    | .unknown => none
    | .outOfRange => none
    | .instr i => emittedBy i s
  else none

/-- The `halted` output (R85). -/
def haltedPort (s : State) : Bool := decide (s.run = .halted)

/-- The `err` output (R85): the cause code of R161. -/
def errPort (s : State) : BitVec 3 := s.err.code

/-- The status interface (R86): read-only and between steps. -/
structure Status where
  pc : Byte
  regs : Regs
  fl : Byte
  run : RunState
  err : Cause
  deriving DecidableEq, Repr

/-- What the status interface shows of a state (R86). -/
def statusOf (s : State) : Status where
  pc := s.pc
  regs := s.regs
  fl := s.flags.byte
  run := s.run
  err := s.err

end Sys2Proof.Machine
end

