-- ==== Sys2Proof/Safety.lean ====
section
/-! DEFINITION. What counts as a safe run, in the terms claims use: the invariant of the machine, the end of a run and its
result (R195). -/

namespace Sys2Proof.Machine

/-- What holds in every state of a run: memory in canonical form, at most one flag set (R17), and a cause in `err` only when the
machine is HALTED (R20). -/
def State.Inv (s : State) : Prop :=
  Memory.wf s.mem ∧ s.flags.exclusive ∧ (s.err ≠ .none → s.run = .halted)

/-- A run has ended when `run = HALTED` (R195). -/
def State.hasEnded (s : State) : Prop := s.run = .halted

/-- A clean halt (R195). -/
def State.cleanHalt (s : State) : Prop := s.run = .halted ∧ s.err = .none

/-- A fatal end (R195). -/
def State.fatalEnd (s : State) : Prop := s.run = .halted ∧ s.err ≠ .none

/-- The result of an ended run (R195): the emitted bytes and the final state; `none` of a run that has not ended. -/
def runResult (s : State) : Option (List Byte × State) :=
  match s.run with
  | .running => none
  | .halted => some (s.out, s)

end Sys2Proof.Machine
end

