-- ==== Sys2Proof/Certificates/Slice0/Obligations.lean ====
section
/-! DEFINITION. The statements for the provers. Where one rests on a decision the spec marks as its own (92_eei_decisions.md D<n>) or
on a choice of this model (log entry <n>), its docstring says so. -/

open Sys2Proof Sys2Proof.Machine

/-! ### Encoding -/

/-- Decode and encode agree (R50 to R54), for every instruction with every operand byte, every injective opcode map, and whatever
bytes follow. -/
def Obligations.DecodeOfEncodeIsTheInstruction : Prop :=
  ∀ (c : Config) (i : Instr) (rest : List Byte), c.Injective → decode c (encode c i ++ rest) = .ok i rest

/-- The other direction: bytes that decode are the encoding of what they decode to, so no byte has two readings and no operand bit
is dropped (R50, R51), under every opcode map. -/
def Obligations.DecodedBytesAreTheEncoding : Prop :=
  ∀ (c : Config) (bs rest : List Byte) (i : Instr), decode c bs = .ok i rest → bs = encode c i ++ rest

/-- R72: the decoder answers Known(m, format, len) for the opcode bytes of `OPCODE_MAP` and Unknown for every other byte. -/
def Obligations.DecoderIsTheOpcodeTable : Prop :=
  ∀ (c : Config) (ir : Byte), c.Injective →
    (∀ m : Mnemonic, c.opcodeMap m = ir → ∃ d, instructionDecoder c ir = some d ∧
      d.mnemonic = m ∧ d.format = m.format ∧ d.len = m.len ∧ d.aluOp = m.aluOp) ∧
    ((∀ m : Mnemonic, c.opcodeMap m ≠ ir) → instructionDecoder c ir = none)

/-- The length table of R52, mnemonic by mnemonic; NOT is three bytes (R53, the spec's decision D2). -/
def Obligations.LengthTable : Prop :=
  (∀ m ∈ [Mnemonic.hlt, .ret], m.len = 1) ∧
    (∀ m ∈ [Mnemonic.prn, .pop, .push, .call, .jmp, .jeq, .jne], m.len = 2) ∧
    (∀ m ∈ [Mnemonic.ldi, .add, .mul, .and, .or, .xor, .not, .shl, .shr, .mod, .cmp], m.len = 3)

/-- Words written out from the spec's encodings under the default opcode map (PRESUMED, log entry 1), one per format and family. -/
def Obligations.SpecWordsDecode : Prop :=
  decode defaultConfig [0x82, 0x00, 0x08] = .ok (.ldi 0 8) [] ∧
    decode defaultConfig [0x47, 0x02] = .ok (.prn 2) [] ∧
    decode defaultConfig [0x01, 0xAA] = .ok .hlt [0xAA] ∧
    decode defaultConfig [0x69, 0x02, 0x05] = .ok (.not 2 5) [] ∧
    decode defaultConfig [0x45, 0x07] = .ok (.push 7) [] ∧
    decode defaultConfig [0x50, 0x01, 0x47] = .ok (.call 1) [0x47] ∧
    decode defaultConfig [0x11] = .ok .ret [] ∧
    decode defaultConfig [0x00] = .unknownOpcode 0x00 ∧
    decode defaultConfig [0xA0, 0x01] = .truncated .add

/-- R54, R58: the default opcode map (PRESUMED, log entry 1) is injective and leaves 236 of the 256 byte values unknown. -/
def Obligations.DefaultMapLeaves236Unknown : Prop :=
  defaultConfig.Injective ∧
    ((List.range 256).filter fun n => (decodeOpcode defaultConfig (BitVec.ofNat 8 n)).isNone).length = 236

/-! ### The step -/

/-- A step runs the decoded instruction (R70): when the bytes at `pc` decode to `i`, one move of a block that takes a step is `exec i`;
nothing is added around it. For every opcode map and policy, and for `step` in particular. -/
def Obligations.StepRunsTheDecodedInstruction : Prop :=
  (∀ (c : Config) (s : State) (i : Instr) (rest : List Byte), s.Ready → decode c s.bytesFromPc = .ok i rest →
    stepWith c s = exec i s) ∧
  ∀ (s : State) (i : Instr) (rest : List Byte), s.Ready → decode defaultConfig s.bytesFromPc = .ok i rest →
    step s = exec i s

/-- Where the bytes at `pc` do not decode: an unknown opcode ends the run with `UnknownOpcode` (R162; policy `fatal`, the spec's
decision D5, log entry 2), whatever `pc` is; an instruction whose operand bytes would lie above 255 raises `AddressOutOfRange`
(R163, the spec's decision D4). Nothing but `run` and `err` changes. -/
def Obligations.UndecodableBytesEndTheRun : Prop :=
  (∀ (s : State) (ir : Byte), s.Ready → decode defaultConfig s.bytesFromPc = .unknownOpcode ir →
    step s = .next { s with run := .halted, err := .unknownOpcode }) ∧
  ∀ (s : State) (m : Mnemonic), s.Ready → decode defaultConfig s.bytesFromPc = .truncated m →
    step s = .next { s with run := .halted, err := .addressOutOfRange }

/-- R170: under `UNKNOWN_OPCODE_POLICY = stall` a step on an unknown byte changes nothing at all, and the run of any length from there
is still at the same state: RUNNING, with the same `err`, `pc` and output. -/
def Obligations.StallPolicyNeverEnds : Prop :=
  ∀ (c : Config) (s : State), c.unknownOpcodePolicy = .stall → s.Ready →
    (∀ m : Mnemonic, c.opcodeMap m ≠ s.memRead s.pc) →
    stepWith c s = .next s ∧ ∀ n : Nat, runWith c n s = s

/-- HALTED is terminal (R19, R77; the spec's decision D21): with `reset` 0 there is no step, which the model answers by the fault
`halted` (DESIGN CHOICE, log entry 3); the run of any length stays where it is, so its result (R195) is final; and whatever next state
there is comes from `reset`. -/
def Obligations.HaltedUntilReset : Prop :=
  ∀ (c : Config) (s : State), s.hasEnded →
    (s.resetIn = false → stepWith c s = .fault .halted) ∧
    (∀ n : Nat, runWith c n s = s ∧ runResult (runWith c n s) = some (s.out, s)) ∧
    ∀ t : State, stepWith c s = .next t → s.resetIn = true ∧ t.run = .running ∧ t.mem = s.mem

/-- R78: while `step_en` is 0 a RUNNING machine keeps its whole state. -/
def Obligations.StepEnableLowHoldsTheState : Prop :=
  ∀ (c : Config) (s : State), s.resetIn = false → s.run = .running → s.stepEn = false → stepWith c s = .next s

/-- R78: stepping one at a time under `step_en` and running freely give the same sequence of states. Whatever levels the host drives
`step_en` to, move by move, the block then stands where the free run stands after as many steps as there were moves with `step_en` 1,
up to the level of `step_en` itself; and one move with `step_en` 1, held at 0 for any number of moves after, is exactly the whole effect of the
one instruction at `pc`. The input `step_en` is the spec's decision D17. -/
def Obligations.SteppingEqualsRunning : Prop :=
  ∀ (c : Config) (s : State), s.resetIn = false →
    (∀ levels : List Bool,
      (gatedRun c levels s).driveStepEn true = runWith c (levels.count true) (s.driveStepEn true)) ∧
    ∀ (i : Instr) (rest : List Byte) (t : State) (held : Nat), s.Ready → decode c s.bytesFromPc = .ok i rest →
      exec i s = .next t → (gatedRun c (true :: List.replicate held false) s).driveStepEn true = t

/-- R190: `reset` asserted puts every register of the block in its reset value and empties the output stream, from any state, HALTED
ones too; memory is not written (the spec's decision D22), the flags are cleared (D8). That it comes before HALTED and `step_en`
is DEDUCED, log entry 5. -/
def Obligations.ResetInputRestoresTheBlock : Prop :=
  ∀ (c : Config) (s : State), s.resetIn = true → ∃ t, stepWith c s = .next t ∧
    (∀ q : Reg, t.getReg q = if q = 7 then 0xF4 else 0) ∧
    t.flags = { e := false, g := false, l := false } ∧ t.pc = 0 ∧ t.run = .running ∧ t.err = .none ∧
    t.out = [] ∧ t.mem = s.mem ∧ t.resetIn = s.resetIn ∧ t.stepEn = s.stepEn

/-- R24: the values right after reset. The cleared flags are the spec's decision D8; the two inputs are the model's choice
(DESIGN CHOICE, log entry 4). -/
def Obligations.ResetStateValues : Prop :=
  (∀ q : Reg, State.reset.getReg q = if q = 7 then 0xF4 else 0) ∧
    State.reset.flags = { e := false, g := false, l := false } ∧ State.reset.pc = 0 ∧
    State.reset.run = .running ∧ State.reset.err = .none ∧ State.reset.out = [] ∧
    (∀ a : Byte, State.reset.memRead a = 0) ∧ State.reset.Ready

/-- The invariant holds at reset. -/
def Obligations.ResetMeetsTheInvariant : Prop := State.reset.Inv

/-- Every move of the block, under every opcode map and policy, keeps: memory in canonical form within the 256 cells, at most one flag
set (R17), a cause in `err` only on a HALTED machine (R20). -/
def Obligations.EveryStepKeepsTheInvariant : Prop :=
  ∀ (c : Config) (s t : State), s.Inv → stepWith c s = .next t → t.Inv

/-- R192, R193: the run of an image starts from zeroed memory with the image at 0 upward and the reset values of R24; no run is defined
for more than 256 bytes (the spec's decision D19). -/
def Obligations.ImageLoadedFromAddressZero : Prop :=
  ∀ image : List Byte,
    (image.length ≤ 256 → ∃ s, boot image = some s ∧
      (∀ a : Byte, s.memRead a = image.getD a.toNat 0) ∧ s = { State.reset with mem := s.mem } ∧ s.Inv) ∧
    (256 < image.length → boot image = none)

/-! ### Memory and registers -/

/-- R31: a write is seen by every later read of the cell, no other cell and nothing else changes. -/
def Obligations.MemoryReadAfterWrite : Prop :=
  ∀ (s : State) (a b v : Byte),
    (s.memWrite a v).memRead b = (if b = a then v else s.memRead b) ∧
      s.memWrite a v = { s with mem := (s.memWrite a v).mem }

/-- R12: a register write stores the value modulo 256, the remainder non-negative, for every integer; a read returns the last value
written, or the reset value. -/
def Obligations.RegisterWriteTruncates : Prop :=
  (∀ (x : Regs) (r q : Reg) (v : Int),
    ((readReg (writeReg x r v) q).toNat : Int) = if q = r then v % 256 else (readReg x q).toNat) ∧
  ∀ q : Reg, readReg State.reset.regs q = if q = 7 then 0xF4 else 0

/-! ### What each instruction does: where it completes, and the whole next state -/

/-- LDI (R100), every register and every immediate. It executes where `pc + 3` is at most 255 (the spec's decision D4). -/
def Obligations.LdiLoadsTheImmediate : Prop :=
  ∀ (s : State) (a v : Byte) (ra : Reg), s.run = .running → s.pc.toNat ≤ 252 → a.toNat = ra.val →
    exec (.ldi a v) s = .next { s with regs := s.regs.set ra.val v ra.isLt, pc := s.pc + 3 }

/-- PRN (R101): the raw byte is appended to the output stream. It executes where `pc + 2` is at most 255 (D4). -/
def Obligations.PrnEmitsTheRegister : Prop :=
  ∀ (s : State) (a : Byte) (ra : Reg), s.run = .running → s.pc.toNat ≤ 253 → a.toNat = ra.val →
    exec (.prn a) s = .next { s with out := s.out ++ [s.getReg ra], pc := s.pc + 2 }

/-- HLT (R102), at any address. That `pc` keeps the address of the HLT is the spec's decision D10. -/
def Obligations.HltOnlyHalts : Prop :=
  ∀ s : State, s.run = .running → exec .hlt s = .next { s with run := .halted }

/-- ADD (R111): the sum modulo 256, for any two registers, the same one twice among them. -/
def Obligations.AddWritesTheSum : Prop :=
  ∀ (s : State) (a b : Byte) (ra rb : Reg), s.run = .running → s.pc.toNat ≤ 252 → a.toNat = ra.val → b.toNat = rb.val →
    exec (.add a b) s = .next { s with
      regs := s.regs.set ra.val (BitVec.ofNat 8 (((s.getReg ra).toNat + (s.getReg rb).toNat) % 256)) ra.isLt
      pc := s.pc + 3 }

/-- MUL (R112): the product modulo 256. -/
def Obligations.MulWritesTheProduct : Prop :=
  ∀ (s : State) (a b : Byte) (ra rb : Reg), s.run = .running → s.pc.toNat ≤ 252 → a.toNat = ra.val → b.toNat = rb.val →
    exec (.mul a b) s = .next { s with
      regs := s.regs.set ra.val (BitVec.ofNat 8 (((s.getReg ra).toNat * (s.getReg rb).toNat) % 256)) ra.isLt
      pc := s.pc + 3 }

/-- AND, OR, XOR (R113 to R115), bit by bit. -/
def Obligations.BitwiseInstructionsActOnEachBit : Prop :=
  ∀ (s : State) (a b : Byte) (ra rb : Reg), s.run = .running → s.pc.toNat ≤ 252 → a.toNat = ra.val → b.toNat = rb.val →
    (∃ v : Byte, (∀ k < 8, v.getLsbD k = ((s.getReg ra).getLsbD k && (s.getReg rb).getLsbD k)) ∧
      exec (.and a b) s = .next { s with regs := s.regs.set ra.val v ra.isLt, pc := s.pc + 3 }) ∧
    (∃ v : Byte, (∀ k < 8, v.getLsbD k = ((s.getReg ra).getLsbD k || (s.getReg rb).getLsbD k)) ∧
      exec (.or a b) s = .next { s with regs := s.regs.set ra.val v ra.isLt, pc := s.pc + 3 }) ∧
    (∃ v : Byte, (∀ k < 8, v.getLsbD k = Bool.xor ((s.getReg ra).getLsbD k) ((s.getReg rb).getLsbD k)) ∧
      exec (.xor a b) s = .next { s with regs := s.regs.set ra.val v ra.isLt, pc := s.pc + 3 })

/-- NOT (R116): the register whose index is the CONTENT of `x[a]` is complemented, `x[a]` itself among them; `b` is a register index
and otherwise unused. The indirection is kept by the spec's decision D14. -/
def Obligations.NotComplementsThePointedRegister : Prop :=
  ∀ (s : State) (a b : Byte) (ra r : Reg), s.run = .running → s.pc.toNat ≤ 252 → a.toNat = ra.val → b.toNat ≤ 7 →
    (s.getReg ra).toNat = r.val →
    exec (.not a b) s = .next { s with
      regs := s.regs.set r.val (BitVec.ofNat 8 (255 - (s.getReg r).toNat)) r.isLt
      pc := s.pc + 3 }

/-- SHL and SHR (R117, R118; the spec's decision D14): nothing changes but `pc`, for every shift amount. -/
def Obligations.ShiftsOnlyAdvance : Prop :=
  ∀ (s : State) (a b : Byte), s.run = .running → s.pc.toNat ≤ 252 → a.toNat ≤ 7 → b.toNat ≤ 7 →
    exec (.shl a b) s = .next { s with pc := s.pc + 3 } ∧ exec (.shr a b) s = .next { s with pc := s.pc + 3 }

/-- MOD with a divisor that is not 0 (R119, R121): the unique remainder below the divisor. -/
def Obligations.ModWritesTheRemainder : Prop :=
  ∀ (s : State) (a b : Byte) (ra rb : Reg), s.run = .running → s.pc.toNat ≤ 252 → a.toNat = ra.val → b.toNat = rb.val →
    (s.getReg rb).toNat ≠ 0 →
    ∃ v : Byte, v.toNat < (s.getReg rb).toNat ∧
      (∃ k : Nat, (s.getReg ra).toNat = k * (s.getReg rb).toNat + v.toNat) ∧
      exec (.mod a b) s = .next { s with regs := s.regs.set ra.val v ra.isLt, pc := s.pc + 3 }

/-- CMP (R120): exactly one flag, by unsigned comparison. -/
def Obligations.CmpSetsExactlyOneFlag : Prop :=
  ∀ (s : State) (a b : Byte) (ra rb : Reg), s.run = .running → s.pc.toNat ≤ 252 → a.toNat = ra.val → b.toNat = rb.val →
    exec (.cmp a b) s = .next { s with
      flags := {
        e := decide ((s.getReg ra).toNat = (s.getReg rb).toNat)
        g := decide ((s.getReg ra).toNat > (s.getReg rb).toNat)
        l := decide ((s.getReg ra).toNat < (s.getReg rb).toNat) }
      pc := s.pc + 3 }

/-- POP (R131): the byte at the stack pointer goes to `x[a]` and `x[7]` is incremented, wrapping from 255 to 0. For `a = 7` the byte
loaded is incremented (R133, the spec's decision D15). -/
def Obligations.PopLoadsTheStackTop : Prop :=
  ∀ (s : State) (a : Byte) (ra : Reg), s.run = .running → s.pc.toNat ≤ 253 → a.toNat = ra.val →
    (ra ≠ 7 → exec (.pop a) s = .next { s with
      regs := (s.regs.set ra.val (s.memRead (s.getReg 7)) ra.isLt).set 7 (s.getReg 7 + 1)
      pc := s.pc + 2 }) ∧
    (ra = 7 → exec (.pop a) s = .next { s with
      regs := s.regs.set 7 (s.memRead (s.getReg 7) + 1)
      pc := s.pc + 2 })

/-- PUSH (R132): `x[7]` is decremented, wrapping from 0 to 255, and the byte of `x[a]` is stored there. `PUSH R7` stores the
decremented stack pointer (R133, the spec's decision D15). -/
def Obligations.PushStoresBelowTheStackTop : Prop :=
  ∀ (s : State) (a : Byte) (ra : Reg), s.run = .running → s.pc.toNat ≤ 253 → a.toNat = ra.val →
    exec (.push a) s = .next { s with
      regs := s.regs.set 7 (s.getReg 7 - 1)
      mem := Memory.store s.mem (s.getReg 7 - 1).toNat (if ra = 7 then s.getReg 7 - 1 else s.getReg ra)
      pc := s.pc + 2 }

/-- CALL (R141): `pc + 2` is pushed and `pc` becomes `x[a]`, read after the push: `CALL R7` jumps to the cell it has just written
(the spec's decision D15). -/
def Obligations.CallPushesTheReturnAddress : Prop :=
  ∀ (s : State) (a : Byte) (ra : Reg), s.run = .running → s.pc.toNat ≤ 253 → a.toNat = ra.val →
    exec (.call a) s = .next { s with
      regs := s.regs.set 7 (s.getReg 7 - 1)
      mem := Memory.store s.mem (s.getReg 7 - 1).toNat (s.pc + 2)
      pc := if ra = 7 then s.getReg 7 - 1 else s.getReg ra }

/-- RET (R142): one opcode byte and no operand; at any address, the byte on top of the stack becomes `pc` and `x[7]` is incremented
modulo 256; nothing else changes and there is no fatal condition. -/
def Obligations.RetJumpsToTheStackTop : Prop :=
  (∀ c : Config, encode c .ret = [c.opcodeMap .ret]) ∧
  ∀ s : State, s.run = .running →
    exec .ret s = .next { s with regs := s.regs.set 7 (s.getReg 7 + 1), pc := s.memRead (s.getReg 7) }

/-- JMP (R143): a plain jump, from any address but 255, and the run goes on (the spec's decision D14, conflict C2). -/
def Obligations.JmpJumpsAndRunsOn : Prop :=
  ∀ (s : State) (a : Byte) (ra : Reg), s.run = .running → s.pc.toNat ≤ 254 → a.toNat = ra.val →
    exec (.jmp a) s = .next { s with pc := s.getReg ra }

/-- JEQ and JNE (R144, R145): taken by the flag `E` alone, from any address but 255; not taken, `pc + 2`, which must be at most 255
(D4). In every flag state one of the two is taken and the other is not. -/
def Obligations.ConditionalJumpsFollowTheEqualFlag : Prop :=
  ∀ (s : State) (a : Byte) (ra : Reg), s.run = .running → a.toNat = ra.val →
    (s.flags.e = true → s.pc.toNat ≤ 254 → exec (.jeq a) s = .next { s with pc := s.getReg ra }) ∧
    (s.flags.e = false → s.pc.toNat ≤ 253 → exec (.jeq a) s = .next { s with pc := s.pc + 2 }) ∧
    (s.flags.e = false → s.pc.toNat ≤ 254 → exec (.jne a) s = .next { s with pc := s.getReg ra }) ∧
    (s.flags.e = true → s.pc.toNat ≤ 253 → exec (.jne a) s = .next { s with pc := s.pc + 2 })

/-- `exec` answers a next state for every instruction, operand and state: a fatal condition is taken, not a stop (R165). -/
def Obligations.ExecAlwaysAnswersANextState : Prop :=
  ∀ (i : Instr) (s : State), ∃ t, exec i s = .next t

/-! ### Fatal conditions -/

/-- The table of R73 and R163: where an instruction raises `AddressOutOfRange`, by its mnemonic, `E` and `pc`. -/
def Sys2Proof.Machine.needsAddressAbove255 (i : Instr) (e : Bool) (pc : Nat) : Prop :=
  match i.mnemonic, e with
  | .hlt, _ => False
  | .ret, _ => False
  | .jmp, _ => pc = 255
  | .jeq, true => pc = 255
  | .jne, false => pc = 255
  | .jeq, false => 254 ≤ pc
  | .jne, true => 254 ≤ pc
  | .prn, _ => 254 ≤ pc
  | .pop, _ => 254 ≤ pc
  | .push, _ => 254 ≤ pc
  | .call, _ => 254 ≤ pc
  | .ldi, _ => 253 ≤ pc
  | .add, _ => 253 ≤ pc
  | .mul, _ => 253 ≤ pc
  | .and, _ => 253 ≤ pc
  | .or, _ => 253 ≤ pc
  | .xor, _ => 253 ≤ pc
  | .not, _ => 253 ≤ pc
  | .shl, _ => 253 ≤ pc
  | .shr, _ => 253 ≤ pc
  | .mod, _ => 253 ≤ pc
  | .cmp, _ => 253 ≤ pc

/-- R163 with R165 (the spec's decisions D4, D11, D13): an instruction raises `AddressOutOfRange` exactly where the table says, whatever
its operands are, and then nothing but `run` and `err` changes. -/
def Obligations.AddressOutOfRangeExactlyByTheTable : Prop :=
  ∀ (i : Instr) (s : State), s.run = .running → s.err = .none →
    (needsAddressAbove255 i s.flags.e s.pc.toNat →
      exec i s = .next { s with run := .halted, err := .addressOutOfRange }) ∧
    (∀ t, exec i s = .next t → t.err = .addressOutOfRange → needsAddressAbove255 i s.flags.e s.pc.toNat)

/-- R164: NOT's pointer register, where its operands are register indices, holds more than 7. -/
def Sys2Proof.Machine.notPointsAbove7 (i : Instr) (s : State) : Prop :=
  ∃ (a b : Byte) (ra : Reg), i = .not a b ∧ a.toNat = ra.val ∧ 7 < (s.getReg ra).toNat

/-- R164 with R165 and R168 (the spec's decisions D6, D7, D11, D13): past the address check, an instruction raises
`InvalidRegisterIndex` exactly when a register operand is above 7 or NOT's pointer is, and then nothing but `run` and `err` changes. -/
def Obligations.InvalidRegisterIndexExactlyByTheTable : Prop :=
  ∀ (i : Instr) (s : State), s.run = .running → s.err = .none →
    (¬ needsAddressAbove255 i s.flags.e s.pc.toNat → (i.wellFormed = false ∨ notPointsAbove7 i s) →
      exec i s = .next { s with run := .halted, err := .invalidRegisterIndex }) ∧
    (∀ t, exec i s = .next t → t.err = .invalidRegisterIndex → i.wellFormed = false ∨ notPointsAbove7 i s)

/-- R166: a MOD that has passed the earlier checks (`pc + 3` at most 255: the spec's decision D4, log entry 9) and whose divisor register
holds 0 halts with `DivideByZero`, `x[a]` and `pc` and all else unchanged (the spec's decision D11, log entry 9); no other instruction
raises it. -/
def Obligations.DivideByZeroExactlyByMod : Prop :=
  (∀ (s : State) (a b : Byte) (ra rb : Reg), s.run = .running → s.pc.toNat ≤ 252 → a.toNat = ra.val → b.toNat = rb.val →
    s.getReg rb = 0 → exec (.mod a b) s = .next { s with run := .halted, err := .divideByZero }) ∧
  ∀ (i : Instr) (s t : State), s.err = .none → exec i s = .next t → t.err = .divideByZero →
    ∃ (a b : Byte) (rb : Reg), i = .mod a b ∧ b.toNat = rb.val ∧ s.getReg rb = 0

/-- R167: from the loop `UnsupportedAluOp` cannot occur, under any opcode map and policy. -/
def Obligations.UnsupportedAluOpIsUnreachable : Prop :=
  ∀ (c : Config) (s t : State), s.err ≠ .unsupportedAluOp → stepWith c s = .next t → t.err ≠ .unsupportedAluOp

/-- R82, R123: at `alu_core`'s own boundary the six unused select codes answer `Err(UnsupportedAluOp)`, and the ten codes of the table
select their operations. The codes are the spec's decision D20, from general knowledge (PRESUMED, log entry 10). -/
def Obligations.AluSelectCodes : Prop :=
  (∀ sel ∈ [0b0001#4, 0b0011#4, 0b0101#4, 0b0110#4, 0b1110#4, 0b1111#4], ∀ (a b : Reg) (x : Regs) (fl : Flags),
    aluCore sel a b x fl = .err .unsupportedAluOp) ∧
  ∀ (a b : Reg) (x : Regs) (fl : Flags),
    aluCore 0b0000#4 a b x fl = aluAdd a b x fl ∧ aluCore 0b0010#4 a b x fl = aluMul a b x fl ∧
    aluCore 0b0100#4 a b x fl = aluMod a b x fl ∧ aluCore 0b0111#4 a b x fl = aluCmp a b x ∧
    aluCore 0b1000#4 a b x fl = aluAnd a b x fl ∧ aluCore 0b1001#4 a b x fl = aluNot a x fl ∧
    aluCore 0b1010#4 a b x fl = aluOr a b x fl ∧ aluCore 0b1011#4 a b x fl = aluXor a b x fl ∧
    aluCore 0b1100#4 a b x fl = .ok x fl ∧ aluCore 0b1101#4 a b x fl = .ok x fl

/-- R81: what `alu_core` changes. On `Ok`, SHL and SHR change nothing, CMP the flags alone, every other operation at most the one
register `x[a]` (for NOT, `x[x[a]]`); on `Err`, the cause is the one R81 names (NOT's above 7 is the spec's decision D7); and the loop,
past its checks (`pc + 3` at most 255: decision D4), raises the cause with all else unchanged (decision D11) or commits `x'` and `FL'` and
writes `pc + 3`. The decisions are log entry 9. -/
def Obligations.AluCoreContract : Prop :=
  (∀ (op : AluOp) (a b : Reg) (x : Regs) (fl : Flags),
    (∀ x' fl', aluCore (aluSelect op) a b x fl = .ok x' fl' →
      (op = .shl ∨ op = .shr → x' = x ∧ fl' = fl) ∧ (op = .cmp → x' = x) ∧ (op ≠ .cmp → fl' = fl) ∧
      (op ≠ .not → ∀ q : Reg, q ≠ a → readReg x' q = readReg x q) ∧
      (op = .not → ∀ q : Reg, q.val ≠ (readReg x a).toNat → readReg x' q = readReg x q)) ∧
    (∀ cause, aluCore (aluSelect op) a b x fl = .err cause ↔
      (op = .mod ∧ (readReg x b).toNat = 0 ∧ cause = .divideByZero) ∨
      (op = .not ∧ 7 < (readReg x a).toNat ∧ cause = .invalidRegisterIndex))) ∧
  (∀ (sel : BitVec 4) (a b : Reg) (x : Regs) (fl : Flags), (∀ op, aluSelect op ≠ sel) →
    aluCore sel a b x fl = .err .unsupportedAluOp) ∧
  (∀ (s : State) (a b : Byte) (ra rb : Reg), s.run = .running → s.pc.toNat ≤ 252 → a.toNat = ra.val → b.toNat = rb.val →
    ∀ p ∈ [(Instr.add a b, AluOp.add), (.mul a b, .mul), (.and a b, .and), (.or a b, .or), (.xor a b, .xor),
        (.not a b, .not), (.shl a b, .shl), (.shr a b, .shr), (.mod a b, .mod), (.cmp a b, .cmp)],
      exec p.1 s = match aluCore (aluSelect p.2) ra rb s.regs s.flags with
        | .ok x' fl' => .next { s with regs := x', flags := fl', pc := s.pc + 3 }
        | .err cause => .next { s with run := .halted, err := cause })

/-- Fatal conditions are precise (R165, R169; the spec's decision D11): a step that leaves a cause in `err` changes nothing but `run`
and `err`, under every opcode map and policy. -/
def Obligations.FatalConditionsArePrecise : Prop :=
  ∀ (c : Config) (s t : State), s.Ready → s.err = .none → stepWith c s = .next t → t.err ≠ .none →
    t = { s with run := .halted, err := t.err }

/-- R19, R195 with conflict C1: HALTED is entered by HLT, a clean halt with all else kept, or by a fatal condition, a fatal end. -/
def Obligations.HaltedEnteredByHltOrFatalOnly : Prop :=
  ∀ (c : Config) (s t : State), s.Ready → s.err = .none → stepWith c s = .next t → t.hasEnded →
    (t.cleanHalt ∧ t = { s with run := .halted } ∧ ∃ rest, decode c s.bytesFromPc = .ok .hlt rest) ∨ t.fatalEnd

/-! ### Rules of the whole machine -/

/-- R17: no instruction but CMP writes a flag. -/
def Obligations.FlagsWrittenByCmpOnly : Prop :=
  ∀ (i : Instr) (s t : State), (∀ a b, i ≠ .cmp a b) → exec i s = .next t → t.flags = s.flags

/-- `s` with other values in the flags `G` and `L`. -/
def Sys2Proof.Machine.withGreaterLess (s : State) (g l : Bool) : State := { s with flags := { s.flags with g := g, l := l } }

/-- R17: `G` and `L` are read by no instruction. A move of the block from states that differ in `G` and `L` alone stops alike or
gives next states that are equal, or differ in `G` and `L` alone. -/
def Obligations.GreaterAndLessAreNeverRead : Prop :=
  ∀ (c : Config) (s : State) (g l : Bool),
    (∀ t, stepWith c s = .next t →
      stepWith c (withGreaterLess s g l) = .next t ∨
      stepWith c (withGreaterLess s g l) = .next (withGreaterLess t g l)) ∧
    (∀ r, stepWith c s = .fault r → stepWith c (withGreaterLess s g l) = .fault r)

/-- R22: the machine only appends to the output stream and never reads it. Whatever was emitted before, a move of the block with `reset`
0 does the same. -/
def Obligations.OutputIsNeverRead : Prop :=
  ∀ (c : Config) (s t : State) (earlier : List Byte), s.resetIn = false → stepWith c s = .next t →
    stepWith c { s with out := earlier ++ s.out } = .next { t with out := earlier ++ t.out }

/-- R22, R85: a step appends to the output stream exactly its output event, which is there only for a decoded PRN. -/
def Obligations.OutputGrowsByPrnOnly : Prop :=
  ∀ (c : Config) (s t : State), s.resetIn = false → stepWith c s = .next t →
    t.out = s.out ++ (outEvent c s).toList ∧
      (∀ v, outEvent c s = some v → ∃ (a : Byte) (ra : Reg) (rest : List Byte),
        decode c s.bytesFromPc = .ok (.prn a) rest ∧ a.toNat = ra.val ∧ v = s.getReg ra)

/-- R23, R30 with conflict C6: memory is written by PUSH and CALL only. -/
def Obligations.MemoryWrittenByPushAndCallOnly : Prop :=
  ∀ (i : Instr) (s t : State), exec i s = .next t → t.mem ≠ s.mem → (∃ a, i = .push a) ∨ ∃ a, i = .call a

/-- R38, R84: the transactions of a step are its memory accesses. Memory after the step is memory before it with the write transactions
applied in order; every read transaction carries the byte the cell held when the step began; the first is the opcode fetch; and
at most one write stands in the list, at its end. -/
def Obligations.TransactionsAreTheMemoryAccesses : Prop :=
  ∀ (c : Config) (s t : State), s.Ready → stepWith c s = .next t →
    t.mem = (busOf c s).foldl applyTxn s.mem ∧
    (∀ addr rdata, BusTxn.read addr rdata ∈ busOf c s → rdata = s.memRead addr) ∧
    (busOf c s).head? = some (.read s.pc (s.memRead s.pc)) ∧
    (∀ addr wdata, BusTxn.write addr wdata ∈ (busOf c s).dropLast → False)

/-- R133, third bullet: for `a` not 7, `PUSH Ra` and then `POP Rb` leaves `x[7]` as it was (for `b` not 7), sets `x[b]` to the pushed
byte and leaves that byte below the stack top; from every stack pointer, 0 among them. -/
def Obligations.PushThenPopRoundTrips : Prop :=
  ∀ (s : State) (a b : Byte) (ra rb : Reg), s.run = .running → s.pc.toNat ≤ 251 → a.toNat = ra.val → b.toNat = rb.val →
    ra ≠ 7 → rb ≠ 7 →
    ∃ t u, exec (.push a) s = .next t ∧ exec (.pop b) t = .next u ∧
      u.getReg 7 = s.getReg 7 ∧ u.getReg rb = s.getReg ra ∧ u.memRead (s.getReg 7 - 1) = s.getReg ra

/-- R141, R142: a CALL and, from any later state with the stack pointer and the top of stack CALL left, a RET: control is back at the
instruction after the CALL and `x[7]` is what it was before it. -/
def Obligations.CallThenRetRoundTrips : Prop :=
  ∀ (s : State) (a : Byte) (ra : Reg), s.run = .running → s.pc.toNat ≤ 253 → a.toNat = ra.val →
    ∃ t, exec (.call a) s = .next t ∧
      ∀ u : State, u.run = .running → u.getReg 7 = t.getReg 7 → u.memRead (u.getReg 7) = t.memRead (t.getReg 7) →
        ∃ w, exec .ret u = .next w ∧ w.pc = s.pc + 2 ∧ w.getReg 7 = s.getReg 7

/-- R83: `program_counter_mux` keeps `pc`, adds the length, or takes the register's or the memory's byte. -/
def Obligations.PcMuxSelects : Prop :=
  ∀ (pc v : Byte) (len : Nat), nextPc .hold pc = pc ∧ nextPc (.reg v) pc = v ∧ nextPc (.mem v) pc = v ∧
    (pc.toNat + len ≤ 255 → (nextPc (.seq len) pc).toNat = pc.toNat + len)

/-- R18, R161, R85, R86: the flag byte `0b00000LGE` in the four flag states there are, the cause codes, the `halted` and `err` outputs, and
what the status interface shows. The byte's layout is the spec's from general knowledge (PRESUMED, log entry 10; its decision D9); the
numbering of the causes is its decision D12. -/
def Obligations.StatusAndCauseCodes : Prop :=
  (Flags.byte { e := false, g := false, l := false } = 0x00 ∧ Flags.byte { e := true, g := false, l := false } = 0x01 ∧
    Flags.byte { e := false, g := true, l := false } = 0x02 ∧ Flags.byte { e := false, g := false, l := true } = 0x04) ∧
  (Cause.code .none = 0 ∧ Cause.code .unknownOpcode = 1 ∧ Cause.code .addressOutOfRange = 2 ∧
    Cause.code .invalidRegisterIndex = 3 ∧ Cause.code .divideByZero = 4 ∧ Cause.code .unsupportedAluOp = 5) ∧
  ∀ s : State, (haltedPort s = true ↔ s.hasEnded) ∧ errPort s = s.err.code ∧
    statusOf s = { pc := s.pc, regs := s.regs, fl := s.flags.byte, run := s.run, err := s.err }

/-- R121: ADD, MUL, AND, OR and XOR are commutative in the values: `OP a, b` leaves in `x[a]` what `OP b, a` leaves in `x[b]`. -/
def Obligations.AluOperationsCommute : Prop :=
  ∀ (s : State) (a b : Byte) (ra rb : Reg), s.run = .running → s.pc.toNat ≤ 252 → a.toNat = ra.val → b.toNat = rb.val →
    ∀ p ∈ [(Instr.add a b, Instr.add b a), (.mul a b, .mul b a), (.and a b, .and b a), (.or a b, .or b a),
        (.xor a b, .xor b a)],
      ∃ t u, exec p.1 s = .next t ∧ exec p.2 s = .next u ∧ t.getReg ra = u.getReg rb

/-! ### Frames: what an instruction leaves unchanged when it answers a next state -/

/-- `run` and `err` are as before, unless the whole step was one of these fatal conditions (R165). -/
def Sys2Proof.Machine.keepsRunAndErr (causes : List Cause) (s t : State) : Prop :=
  (t.run = s.run ∧ t.err = s.err) ∨ ∃ cause ∈ causes, t = { s with run := .halted, err := cause }

/-- Every cell of memory reads as before, and the inputs are the host's. -/
def Sys2Proof.Machine.keepsMemoryAndInputs (s t : State) : Prop :=
  (∀ addr : Byte, t.memRead addr = s.memRead addr) ∧ t.resetIn = s.resetIn ∧ t.stepEn = s.stepEn

/-- The frame of LDI, ADD, MUL, AND, OR, XOR and MOD (R11, R100, R110 to R119): no register but `x[a]`, no flag, no output, no memory. -/
def Obligations.FrameOfDestinationRegisterInstructions : Prop :=
  ∀ (s t : State) (a b : Byte),
    ∀ i ∈ [Instr.ldi a b, .add a b, .mul a b, .and a b, .or a b, .xor a b, .mod a b], exec i s = .next t →
      (∀ q : Reg, q.val ≠ a.toNat → t.getReg q = s.getReg q) ∧ t.flags = s.flags ∧ t.out = s.out ∧
      keepsMemoryAndInputs s t ∧
      keepsRunAndErr [.addressOutOfRange, .invalidRegisterIndex, .divideByZero] s t

/-- The frame of NOT (R11, R116): no register but the one the CONTENT of `x[a]` names, no flag, no output, no memory. -/
def Obligations.FrameOfNot : Prop :=
  ∀ (s t : State) (a b : Byte), exec (.not a b) s = .next t →
    (∀ ra : Reg, a.toNat = ra.val → ∀ q : Reg, q.val ≠ (s.getReg ra).toNat → t.getReg q = s.getReg q) ∧
    (7 < a.toNat → t.regs = s.regs) ∧ t.flags = s.flags ∧ t.out = s.out ∧
    keepsMemoryAndInputs s t ∧ keepsRunAndErr [.addressOutOfRange, .invalidRegisterIndex] s t

/-- The frame of the instructions with no destination register (R11): PRN (the output only), HLT (`run` only), SHL, SHR (nothing), CMP
(the flags only), JMP, JEQ, JNE (`pc` only). -/
def Obligations.FrameOfRegisterFreeInstructions : Prop :=
  ∀ (s t : State) (a b : Byte),
    ∀ i ∈ [Instr.prn a, .hlt, .shl a b, .shr a b, .cmp a b, .jmp a, .jeq a, .jne a], exec i s = .next t →
      t.regs = s.regs ∧ (i ≠ .cmp a b → t.flags = s.flags) ∧ (i ≠ .prn a → t.out = s.out) ∧
      keepsMemoryAndInputs s t ∧
      ((i = .hlt ∧ t.run = .halted ∧ t.err = s.err) ∨
        (i ≠ .hlt ∧ keepsRunAndErr [.addressOutOfRange, .invalidRegisterIndex] s t))

/-- The frame of PUSH and CALL (R11, R132, R141): no register but `x[7]`, no flag, no output, and no cell of memory but the one at the
address a push stores to, computed as the meanings compute it. -/
def Obligations.FrameOfStackStores : Prop :=
  ∀ (s t : State) (a : Byte), ∀ i ∈ [Instr.push a, .call a], exec i s = .next t →
    (∀ q : Reg, q ≠ 7 → t.getReg q = s.getReg q) ∧ t.flags = s.flags ∧ t.out = s.out ∧
    (∀ stored : Byte, pushAddress s = stored → ∀ addr : Byte, addr ≠ stored → t.memRead addr = s.memRead addr) ∧
    t.resetIn = s.resetIn ∧ t.stepEn = s.stepEn ∧
    keepsRunAndErr [.addressOutOfRange, .invalidRegisterIndex] s t

/-- The frame of POP and RET (R11, R131, R142): POP writes no register but `x[a]` and `x[7]`, RET none but `x[7]`; no flag, no output and
no cell of memory changes (conflict C6). -/
def Obligations.FrameOfStackLoads : Prop :=
  ∀ (s t : State) (a : Byte), ∀ i ∈ [Instr.pop a, .ret], exec i s = .next t →
    (∀ q : Reg, q ≠ 7 → (q.val ≠ a.toNat ∨ i = .ret) → t.getReg q = s.getReg q) ∧
    t.flags = s.flags ∧ t.out = s.out ∧ keepsMemoryAndInputs s t ∧
    keepsRunAndErr [.addressOutOfRange, .invalidRegisterIndex] s t
end

