-- ==== Sys2Proof/Laws/State.lean ====
section
/-! SUPPORT. One lemma per field of State per update, so that no proof unfolds a record update. -/

namespace Sys2Proof.Machine

@[simp] theorem State.setReg_regs (s : State) (r : Reg) (v : Byte) : (s.setReg r v).regs = writeReg s.regs r v.toNat := rfl
@[simp] theorem State.setReg_flags (s : State) (r : Reg) (v : Byte) : (s.setReg r v).flags = s.flags := rfl
@[simp] theorem State.setReg_pc (s : State) (r : Reg) (v : Byte) : (s.setReg r v).pc = s.pc := rfl
@[simp] theorem State.setReg_run (s : State) (r : Reg) (v : Byte) : (s.setReg r v).run = s.run := rfl
@[simp] theorem State.setReg_err (s : State) (r : Reg) (v : Byte) : (s.setReg r v).err = s.err := rfl
@[simp] theorem State.setReg_out (s : State) (r : Reg) (v : Byte) : (s.setReg r v).out = s.out := rfl
@[simp] theorem State.setReg_mem (s : State) (r : Reg) (v : Byte) : (s.setReg r v).mem = s.mem := rfl
@[simp] theorem State.setReg_resetIn (s : State) (r : Reg) (v : Byte) : (s.setReg r v).resetIn = s.resetIn := rfl
@[simp] theorem State.setReg_stepEn (s : State) (r : Reg) (v : Byte) : (s.setReg r v).stepEn = s.stepEn := rfl

@[simp] theorem State.decSp_regs (s : State) : (s.decSp).regs = writeReg s.regs spIndex ((s.sp.toNat : Int) - 1) := rfl
@[simp] theorem State.decSp_flags (s : State) : (s.decSp).flags = s.flags := rfl
@[simp] theorem State.decSp_pc (s : State) : (s.decSp).pc = s.pc := rfl
@[simp] theorem State.decSp_run (s : State) : (s.decSp).run = s.run := rfl
@[simp] theorem State.decSp_err (s : State) : (s.decSp).err = s.err := rfl
@[simp] theorem State.decSp_out (s : State) : (s.decSp).out = s.out := rfl
@[simp] theorem State.decSp_mem (s : State) : (s.decSp).mem = s.mem := rfl
@[simp] theorem State.decSp_resetIn (s : State) : (s.decSp).resetIn = s.resetIn := rfl
@[simp] theorem State.decSp_stepEn (s : State) : (s.decSp).stepEn = s.stepEn := rfl

@[simp] theorem State.incSp_regs (s : State) : (s.incSp).regs = writeReg s.regs spIndex ((s.sp.toNat : Int) + 1) := rfl
@[simp] theorem State.incSp_flags (s : State) : (s.incSp).flags = s.flags := rfl
@[simp] theorem State.incSp_pc (s : State) : (s.incSp).pc = s.pc := rfl
@[simp] theorem State.incSp_run (s : State) : (s.incSp).run = s.run := rfl
@[simp] theorem State.incSp_err (s : State) : (s.incSp).err = s.err := rfl
@[simp] theorem State.incSp_out (s : State) : (s.incSp).out = s.out := rfl
@[simp] theorem State.incSp_mem (s : State) : (s.incSp).mem = s.mem := rfl
@[simp] theorem State.incSp_resetIn (s : State) : (s.incSp).resetIn = s.resetIn := rfl
@[simp] theorem State.incSp_stepEn (s : State) : (s.incSp).stepEn = s.stepEn := rfl

@[simp] theorem State.memWrite_regs (s : State) (a v : Byte) : (s.memWrite a v).regs = s.regs := rfl
@[simp] theorem State.memWrite_flags (s : State) (a v : Byte) : (s.memWrite a v).flags = s.flags := rfl
@[simp] theorem State.memWrite_pc (s : State) (a v : Byte) : (s.memWrite a v).pc = s.pc := rfl
@[simp] theorem State.memWrite_run (s : State) (a v : Byte) : (s.memWrite a v).run = s.run := rfl
@[simp] theorem State.memWrite_err (s : State) (a v : Byte) : (s.memWrite a v).err = s.err := rfl
@[simp] theorem State.memWrite_out (s : State) (a v : Byte) : (s.memWrite a v).out = s.out := rfl
@[simp] theorem State.memWrite_mem (s : State) (a v : Byte) : (s.memWrite a v).mem = Memory.store s.mem a.toNat v := rfl
@[simp] theorem State.memWrite_resetIn (s : State) (a v : Byte) : (s.memWrite a v).resetIn = s.resetIn := rfl
@[simp] theorem State.memWrite_stepEn (s : State) (a v : Byte) : (s.memWrite a v).stepEn = s.stepEn := rfl

@[simp] theorem State.writeTop_regs (s : State) (v : Byte) : (s.writeTop v).regs = s.regs := rfl
@[simp] theorem State.writeTop_flags (s : State) (v : Byte) : (s.writeTop v).flags = s.flags := rfl
@[simp] theorem State.writeTop_pc (s : State) (v : Byte) : (s.writeTop v).pc = s.pc := rfl
@[simp] theorem State.writeTop_run (s : State) (v : Byte) : (s.writeTop v).run = s.run := rfl
@[simp] theorem State.writeTop_err (s : State) (v : Byte) : (s.writeTop v).err = s.err := rfl
@[simp] theorem State.writeTop_out (s : State) (v : Byte) : (s.writeTop v).out = s.out := rfl
@[simp] theorem State.writeTop_mem (s : State) (v : Byte) : (s.writeTop v).mem = Memory.store s.mem s.sp.toNat v := rfl
@[simp] theorem State.writeTop_resetIn (s : State) (v : Byte) : (s.writeTop v).resetIn = s.resetIn := rfl
@[simp] theorem State.writeTop_stepEn (s : State) (v : Byte) : (s.writeTop v).stepEn = s.stepEn := rfl

@[simp] theorem State.emit_regs (s : State) (v : Byte) : (s.emit v).regs = s.regs := rfl
@[simp] theorem State.emit_flags (s : State) (v : Byte) : (s.emit v).flags = s.flags := rfl
@[simp] theorem State.emit_pc (s : State) (v : Byte) : (s.emit v).pc = s.pc := rfl
@[simp] theorem State.emit_run (s : State) (v : Byte) : (s.emit v).run = s.run := rfl
@[simp] theorem State.emit_err (s : State) (v : Byte) : (s.emit v).err = s.err := rfl
@[simp] theorem State.emit_out (s : State) (v : Byte) : (s.emit v).out = s.out ++ [v] := rfl
@[simp] theorem State.emit_mem (s : State) (v : Byte) : (s.emit v).mem = s.mem := rfl
@[simp] theorem State.emit_resetIn (s : State) (v : Byte) : (s.emit v).resetIn = s.resetIn := rfl
@[simp] theorem State.emit_stepEn (s : State) (v : Byte) : (s.emit v).stepEn = s.stepEn := rfl

@[simp] theorem State.commitPc_regs (s : State) (sel : PcSel) : (s.commitPc sel).regs = s.regs := rfl
@[simp] theorem State.commitPc_flags (s : State) (sel : PcSel) : (s.commitPc sel).flags = s.flags := rfl
@[simp] theorem State.commitPc_pc (s : State) (sel : PcSel) : (s.commitPc sel).pc = nextPc sel s.pc := rfl
@[simp] theorem State.commitPc_run (s : State) (sel : PcSel) : (s.commitPc sel).run = s.run := rfl
@[simp] theorem State.commitPc_err (s : State) (sel : PcSel) : (s.commitPc sel).err = s.err := rfl
@[simp] theorem State.commitPc_out (s : State) (sel : PcSel) : (s.commitPc sel).out = s.out := rfl
@[simp] theorem State.commitPc_mem (s : State) (sel : PcSel) : (s.commitPc sel).mem = s.mem := rfl
@[simp] theorem State.commitPc_resetIn (s : State) (sel : PcSel) : (s.commitPc sel).resetIn = s.resetIn := rfl
@[simp] theorem State.commitPc_stepEn (s : State) (sel : PcSel) : (s.commitPc sel).stepEn = s.stepEn := rfl

@[simp] theorem raiseFatal_regs (c : Cause) (s : State) : (raiseFatal c s).regs = s.regs := rfl
@[simp] theorem raiseFatal_flags (c : Cause) (s : State) : (raiseFatal c s).flags = s.flags := rfl
@[simp] theorem raiseFatal_pc (c : Cause) (s : State) : (raiseFatal c s).pc = s.pc := rfl
@[simp] theorem raiseFatal_run (c : Cause) (s : State) : (raiseFatal c s).run = .halted := rfl
@[simp] theorem raiseFatal_err (c : Cause) (s : State) : (raiseFatal c s).err = c := rfl
@[simp] theorem raiseFatal_out (c : Cause) (s : State) : (raiseFatal c s).out = s.out := rfl
@[simp] theorem raiseFatal_mem (c : Cause) (s : State) : (raiseFatal c s).mem = s.mem := rfl
@[simp] theorem raiseFatal_resetIn (c : Cause) (s : State) : (raiseFatal c s).resetIn = s.resetIn := rfl
@[simp] theorem raiseFatal_stepEn (c : Cause) (s : State) : (raiseFatal c s).stepEn = s.stepEn := rfl

@[simp] theorem State.blockReset_regs (s : State) : (s.blockReset).regs = State.reset.regs := rfl
@[simp] theorem State.blockReset_flags (s : State) : (s.blockReset).flags = State.reset.flags := rfl
@[simp] theorem State.blockReset_pc (s : State) : (s.blockReset).pc = State.reset.pc := rfl
@[simp] theorem State.blockReset_run (s : State) : (s.blockReset).run = State.reset.run := rfl
@[simp] theorem State.blockReset_err (s : State) : (s.blockReset).err = State.reset.err := rfl
@[simp] theorem State.blockReset_out (s : State) : (s.blockReset).out = State.reset.out := rfl
@[simp] theorem State.blockReset_mem (s : State) : (s.blockReset).mem = s.mem := rfl
@[simp] theorem State.blockReset_resetIn (s : State) : (s.blockReset).resetIn = s.resetIn := rfl
@[simp] theorem State.blockReset_stepEn (s : State) : (s.blockReset).stepEn = s.stepEn := rfl

@[simp] theorem State.driveReset_regs (s : State) (level : Bool) : (s.driveReset level).regs = s.regs := rfl
@[simp] theorem State.driveReset_flags (s : State) (level : Bool) : (s.driveReset level).flags = s.flags := rfl
@[simp] theorem State.driveReset_pc (s : State) (level : Bool) : (s.driveReset level).pc = s.pc := rfl
@[simp] theorem State.driveReset_run (s : State) (level : Bool) : (s.driveReset level).run = s.run := rfl
@[simp] theorem State.driveReset_err (s : State) (level : Bool) : (s.driveReset level).err = s.err := rfl
@[simp] theorem State.driveReset_out (s : State) (level : Bool) : (s.driveReset level).out = s.out := rfl
@[simp] theorem State.driveReset_mem (s : State) (level : Bool) : (s.driveReset level).mem = s.mem := rfl
@[simp] theorem State.driveReset_resetIn (s : State) (level : Bool) : (s.driveReset level).resetIn = level := rfl
@[simp] theorem State.driveReset_stepEn (s : State) (level : Bool) : (s.driveReset level).stepEn = s.stepEn := rfl

@[simp] theorem State.driveStepEn_driveStepEn (s : State) (first last : Bool) :
    (s.driveStepEn first).driveStepEn last = s.driveStepEn last := rfl
@[simp] theorem State.driveStepEn_regs (s : State) (level : Bool) : (s.driveStepEn level).regs = s.regs := rfl
@[simp] theorem State.driveStepEn_flags (s : State) (level : Bool) : (s.driveStepEn level).flags = s.flags := rfl
@[simp] theorem State.driveStepEn_pc (s : State) (level : Bool) : (s.driveStepEn level).pc = s.pc := rfl
@[simp] theorem State.driveStepEn_run (s : State) (level : Bool) : (s.driveStepEn level).run = s.run := rfl
@[simp] theorem State.driveStepEn_err (s : State) (level : Bool) : (s.driveStepEn level).err = s.err := rfl
@[simp] theorem State.driveStepEn_out (s : State) (level : Bool) : (s.driveStepEn level).out = s.out := rfl
@[simp] theorem State.driveStepEn_mem (s : State) (level : Bool) : (s.driveStepEn level).mem = s.mem := rfl
@[simp] theorem State.driveStepEn_resetIn (s : State) (level : Bool) : (s.driveStepEn level).resetIn = s.resetIn := rfl
@[simp] theorem State.driveStepEn_stepEn (s : State) (level : Bool) : (s.driveStepEn level).stepEn = level := rfl

end Sys2Proof.Machine
end

