-- ==== Sys2Proof/Laws/Registers.lean ====
section
/-! SUPPORT. The register file: what a read gives after a write, and truncation to a byte (R12). -/

namespace Sys2Proof.Machine

/-- Truncation stores the non-negative remainder modulo 256 (R12). -/
theorem truncate_toNat (v : Int) : ((truncate v).toNat : Int) = v % 256 := by
  have h : 0 ≤ v % 256 := Int.emod_nonneg _ (by decide)
  simp [truncate, BitVec.toNat_ofInt, Int.toNat_of_nonneg h]

/-- A natural number is truncated as `BitVec.ofNat` truncates it. -/
theorem truncate_natCast (n : Nat) : truncate (n : Int) = BitVec.ofNat 8 n := by
  simp [truncate]

/-- A byte is stored as it is. -/
@[simp] theorem truncate_byte (v : Byte) : truncate (v.toNat : Int) = v := by
  simp [truncate_natCast]

/-- Incrementing wraps modulo 256. -/
@[simp] theorem truncate_succ (v : Byte) : truncate ((v.toNat : Int) + 1) = v + 1 := by
  simp [truncate, BitVec.ofInt_add]

/-- Decrementing wraps modulo 256. -/
@[simp] theorem truncate_pred (v : Byte) : truncate ((v.toNat : Int) - 1) = v - 1 := by
  simp [truncate, sub_eq_add_neg, BitVec.ofInt_add]

/-- `get` after `set` (R80): the truncated value in the register written, every other register as before. -/
theorem readReg_writeReg (x : Regs) (r q : Reg) (v : Int) :
    readReg (writeReg x r v) q = if q = r then truncate v else readReg x q := by
  by_cases h : q = r
  · subst h
    simp [readReg, writeReg]
  · have : r.val ≠ q.val := fun e => h (Fin.ext e.symm)
    simp [readReg, writeReg, h, this]

@[simp] theorem readReg_writeReg_self (x : Regs) (r : Reg) (v : Int) :
    readReg (writeReg x r v) r = truncate v := by
  simp [readReg_writeReg]

/-- Two register files that agree on every register are equal. -/
theorem regs_ext {x y : Regs} (h : ∀ q, readReg x q = readReg y q) : x = y := by
  apply Vector.ext
  intro i hi
  exact h ⟨i, hi⟩

/-- Reading a register after `x[r] <- v` (R12). -/
theorem getReg_setReg (s : State) (r q : Reg) (v : Byte) :
    (s.setReg r v).getReg q = if q = r then v else s.getReg q := by
  simp [State.getReg, readReg_writeReg]

/-- Reading a register after the stack pointer's decrement (R132). -/
theorem getReg_decSp (s : State) (q : Reg) :
    s.decSp.getReg q = if q = spIndex then s.sp - 1 else s.getReg q := by
  simp [State.getReg, readReg_writeReg]

/-- Reading a register after the stack pointer's increment (R131). -/
theorem getReg_incSp (s : State) (q : Reg) :
    s.incSp.getReg q = if q = spIndex then s.sp + 1 else s.getReg q := by
  simp [State.getReg, readReg_writeReg]

/-- The stack pointer after its decrement: wraps from 0 to 255 (R13). -/
@[simp] theorem sp_decSp (s : State) : s.decSp.sp = s.sp - 1 := by
  simp [State.sp, getReg_decSp]

/-- The stack pointer after its increment: wraps from 255 to 0 (R13). -/
@[simp] theorem sp_incSp (s : State) : s.incSp.sp = s.sp + 1 := by
  simp [State.sp, getReg_incSp]

/-- A push's store writes no register. -/
@[simp] theorem getReg_writeTop (s : State) (v : Byte) (q : Reg) : (s.writeTop v).getReg q = s.getReg q := rfl

/-- The cell a push writes (R130). -/
theorem pushAddress_eq (s : State) : pushAddress s = s.sp - 1 := sp_decSp s

end Sys2Proof.Machine
end

