-- ==== Sys2Proof/Laws/Operands.lean ====
section
/-! SUPPORT. Everything the shared checks can do: a fatal condition, or the instruction goes on. -/

namespace Sys2Proof.Machine

/-- The address check as an inequality on numbers (R73). -/
theorem addressFault_iff (m : Mnemonic) (e : Bool) (pc : Byte) :
    addressFault m e pc = true ↔ 256 ≤ pc.toNat + reach m e :=
  decide_eq_true_iff

theorem checkAddress_ok {m : Mnemonic} {s : State} {k : Host.Outcome State Fault Refusal}
    (h : s.pc.toNat + reach m s.flags.e < 256) : checkAddress m s k = k := by
  have : ¬ addressFault m s.flags.e s.pc = true := by rw [addressFault_iff]; omega
  simp [checkAddress, this]

theorem checkAddress_fault {m : Mnemonic} {s : State} {k : Host.Outcome State Fault Refusal}
    (h : 256 ≤ s.pc.toNat + reach m s.flags.e) : checkAddress m s k = trap .addressOutOfRange s := by
  simp [checkAddress, (addressFault_iff m s.flags.e s.pc).mpr h]

theorem withReg_ok (r : Reg) {s : State} {k : Reg → Host.Outcome State Fault Refusal} :
    withReg (BitVec.ofNat 8 r.val) s k = k r := by
  have h : r.val % 256 = r.val := by omega
  simp [withReg, h]

theorem withReg_of_le {a : Byte} {s : State} {k : Reg → Host.Outcome State Fault Refusal}
    (h : a.toNat < 8) : withReg a s k = k ⟨a.toNat, h⟩ := by
  simp [withReg, h]

theorem withReg_fault {a : Byte} {s : State} {k : Reg → Host.Outcome State Fault Refusal}
    (h : 8 ≤ a.toNat) : withReg a s k = trap .invalidRegisterIndex s := by
  simp [withReg, Nat.not_lt.mpr h]

/-- Everything `checkAddress` can do when it answers a next state. -/
theorem checkAddress_next {m : Mnemonic} {s t : State} {k : Host.Outcome State Fault Refusal}
    (h : checkAddress m s k = .next t) :
    (256 ≤ s.pc.toNat + reach m s.flags.e ∧ t = raiseFatal .addressOutOfRange s) ∨
      (s.pc.toNat + reach m s.flags.e < 256 ∧ k = .next t) := by
  rcases Nat.lt_or_ge (s.pc.toNat + reach m s.flags.e) 256 with hlt | hge
  · exact .inr ⟨hlt, by rwa [checkAddress_ok hlt] at h⟩
  · rw [checkAddress_fault hge] at h
    exact .inl ⟨hge, by cases h; rfl⟩

/-- Everything `withReg` can do when it answers a next state. -/
theorem withReg_next {a : Byte} {s t : State} {k : Reg → Host.Outcome State Fault Refusal}
    (h : withReg a s k = .next t) :
    (8 ≤ a.toNat ∧ t = raiseFatal .invalidRegisterIndex s) ∨
      ∃ r : Reg, r.val = a.toNat ∧ k r = .next t := by
  rcases Nat.lt_or_ge a.toNat 8 with hlt | hge
  · exact .inr ⟨⟨a.toNat, hlt⟩, rfl, by rwa [withReg_of_le hlt] at h⟩
  · rw [withReg_fault hge] at h
    exact .inl ⟨hge, by cases h; rfl⟩

/-- Everything format R can do when it answers a next state. -/
theorem formatR_next {m : Mnemonic} {a : Byte} {s t : State} {k : Reg → Host.Outcome State Fault Refusal}
    (h : formatR m a s k = .next t) :
    t = raiseFatal .addressOutOfRange s ∨ t = raiseFatal .invalidRegisterIndex s ∨
      (s.pc.toNat + reach m s.flags.e < 256 ∧ ∃ r : Reg, r.val = a.toNat ∧ k r = .next t) := by
  rcases checkAddress_next h with ⟨-, h⟩ | ⟨hlt, h⟩
  · exact .inl h
  · rcases withReg_next h with ⟨-, h⟩ | h
    · exact .inr (.inl h)
    · exact .inr (.inr ⟨hlt, h⟩)

/-- Everything format RR can do when it answers a next state. -/
theorem formatRR_next {m : Mnemonic} {a b : Byte} {s t : State}
    {k : Reg → Reg → Host.Outcome State Fault Refusal} (h : formatRR m a b s k = .next t) :
    t = raiseFatal .addressOutOfRange s ∨ t = raiseFatal .invalidRegisterIndex s ∨
      (s.pc.toNat + reach m s.flags.e < 256 ∧
        ∃ ra rb : Reg, ra.val = a.toNat ∧ rb.val = b.toNat ∧ k ra rb = .next t) := by
  rcases checkAddress_next h with ⟨-, h⟩ | ⟨hlt, h⟩
  · exact .inl h
  · rcases withReg_next h with ⟨-, h⟩ | ⟨ra, ha, h⟩
    · exact .inr (.inl h)
    · rcases withReg_next h with ⟨-, h⟩ | ⟨rb, hb, h⟩
      · exact .inr (.inl h)
      · exact .inr (.inr ⟨hlt, ra, rb, ha, hb, h⟩)

/-- Format R with every check passed. -/
theorem formatR_ok {m : Mnemonic} (r : Reg) {s : State} {k : Reg → Host.Outcome State Fault Refusal}
    (h : s.pc.toNat + reach m s.flags.e < 256) : formatR m (BitVec.ofNat 8 r.val) s k = k r := by
  rw [formatR, checkAddress_ok h, withReg_ok]

/-- Format RR with every check passed. -/
theorem formatRR_ok {m : Mnemonic} (ra rb : Reg) {s : State}
    {k : Reg → Reg → Host.Outcome State Fault Refusal} (h : s.pc.toNat + reach m s.flags.e < 256) :
    formatRR m (BitVec.ofNat 8 ra.val) (BitVec.ofNat 8 rb.val) s k = k ra rb := by
  rw [formatRR, checkAddress_ok h, withReg_ok, withReg_ok]

end Sys2Proof.Machine
end

