-- ==== Sys2Proof/Laws/Alu.lean ====
section
/-! SUPPORT. alu_core: the select code of an operation gives that operation, and everything an ALU instruction can do. -/

namespace Sys2Proof.Machine

/-- The select codes are distinct, so a code selects its own operation (R82). -/
@[simp] theorem aluOpOf_aluSelect (op : AluOp) : aluOpOf (aluSelect op) = some op := by
  cases op <;> decide

@[simp] theorem aluCore_aluSelect (op : AluOp) (a b : Reg) (x : Regs) (fl : Flags) :
    aluCore (aluSelect op) a b x fl = aluApply op a b x fl := by
  simp [aluCore]

/-- A code of no operation is refused by `alu_core` (R82). -/
theorem aluCore_unsupported {sel : BitVec 4} (h : aluOpOf sel = none) (a b : Reg) (x : Regs) (fl : Flags) :
    aluCore sel a b x fl = .err .unsupportedAluOp := by
  simp [aluCore, h]

/-- CMP sets exactly one flag (R120). -/
theorem compareFlags_exclusive (p q : Byte) : (compareFlags p q).exclusive := by
  unfold compareFlags
  split
  · simp [Flags.exclusive]
  · split <;> simp [Flags.exclusive]

/-- Everything a supported operation can do (R81): an error of NOT or MOD; or one register written, flags kept; or, for CMP, the flags
alone; or, for SHL and SHR, nothing. -/
theorem aluApply_cases (op : AluOp) (a b : Reg) (x : Regs) (fl : Flags) :
    (op = .not ∧ aluApply op a b x fl = .err .invalidRegisterIndex) ∨
      (op = .mod ∧ aluApply op a b x fl = .err .divideByZero) ∨
      (op = .cmp ∧ aluApply op a b x fl = .ok x (compareFlags (readReg x a) (readReg x b))) ∨
      (op ≠ .cmp ∧ ∃ x', aluApply op a b x fl = .ok x' fl ∧
        (x' = x ∨ ∃ (r : Reg) (v : Int), x' = writeReg x r v ∧
          (r = a ∨ (op = .not ∧ r.val = (readReg x a).toNat)))) := by
  cases op
  case not =>
    by_cases h : (readReg x a).toNat < 8
    · exact .inr (.inr (.inr ⟨by decide, _, dif_pos h, .inr ⟨⟨_, h⟩, _, rfl, .inr ⟨rfl, rfl⟩⟩⟩))
    · exact .inl ⟨rfl, by simp [aluApply, aluNot, h]⟩
  case mod =>
    by_cases h : (readReg x b).toNat = 0
    · exact .inr (.inl ⟨rfl, by simp only [aluApply, aluMod, h, if_true]⟩)
    · exact .inr (.inr (.inr ⟨by decide, _, if_neg h, .inr ⟨_, _, rfl, .inl rfl⟩⟩))
  case cmp => exact .inr (.inr (.inl ⟨rfl, rfl⟩))
  case shl => exact .inr (.inr (.inr ⟨by decide, x, rfl, .inl rfl⟩))
  case shr => exact .inr (.inr (.inr ⟨by decide, x, rfl, .inl rfl⟩))
  all_goals exact .inr (.inr (.inr ⟨by decide, _, rfl, .inr ⟨_, _, rfl, .inl rfl⟩⟩))

/-- Everything an ALU instruction can do when it answers a next state. -/
theorem execAlu_next {m : Mnemonic} {op : AluOp} {a b : Byte} {s t : State} (h : execAlu m op a b s = .next t) :
    t = raiseFatal .addressOutOfRange s ∨ t = raiseFatal .invalidRegisterIndex s ∨
      ∃ ra rb : Reg, ra.val = a.toNat ∧ rb.val = b.toNat ∧
        commitAlu m (aluApply op ra rb s.regs s.flags) s = .next t := by
  rcases formatRR_next h with h | h | ⟨-, ra, rb, ha, hb, h⟩
  · exact .inl h
  · exact .inr (.inl h)
  · exact .inr (.inr ⟨ra, rb, ha, hb, by simpa using h⟩)

/-- An ALU instruction with every check passed. -/
theorem execAlu_ok {m : Mnemonic} {op : AluOp} (ra rb : Reg) {s : State}
    (h : s.pc.toNat + reach m s.flags.e < 256) :
    execAlu m op (BitVec.ofNat 8 ra.val) (BitVec.ofNat 8 rb.val) s =
      commitAlu m (aluApply op ra rb s.regs s.flags) s := by
  rw [execAlu, formatRR_ok ra rb h, aluCore_aluSelect]

end Sys2Proof.Machine
end

