-- ==== Sys2Proof/Laws/Decode.lean ====
section
/-! SUPPORT. The tables of the encoding: the recognised set is whole, the default opcode map is injective, an instruction is put
together again from its mnemonic and its operands. -/

namespace Sys2Proof

theorem mem_allMnemonics (m : Mnemonic) : m ∈ allMnemonics := by
  cases m <;> decide

theorem defaultConfig_injective : defaultConfig.Injective := by
  intro m m'
  cases m <;> cases m' <;> simp [defaultConfig, defaultOpcodeMap]

/-- Decoding an opcode byte gives only a mnemonic whose opcode it is. -/
theorem opcodeMap_of_decodeOpcode {c : Config} {ir : Byte} {m : Mnemonic} (h : decodeOpcode c ir = some m) :
    c.opcodeMap m = ir := by
  simpa using List.find?_some h

/-- The number of operand bytes an instruction has is its mnemonic's length less the opcode (R52). -/
theorem operands_length (i : Instr) : i.operands.length + 1 = i.mnemonic.len := by
  cases i <;> rfl

end Sys2Proof
end

