-- ==== Sys2Proof/Laws/Memory.lean ====
section
/-! SUPPORT. Memory: a read after a write, and that every memory operation keeps the canonical form. -/

namespace Sys2Proof.Machine

/-- An address that is not listed reads as an unlisted byte. -/
theorem lookup_of_not_listed {m : List Host.Cell} {a : Nat} (h : ∀ c ∈ m, c.1 ≠ a) :
    Memory.lookup m a = unlistedByte := by
  induction m with
  | nil => rfl
  | cons c m ih =>
    obtain ⟨k, v⟩ := c
    have hk : k ≠ a := h (k, v) (by simp)
    simp [Memory.lookup, hk, ih fun c hc => h c (by simp [hc])]

/-- After `erase` the address reads as an unlisted byte, every other address as before. -/
theorem lookup_erase (m : List Host.Cell) (a b : Nat) :
    Memory.lookup (Memory.erase m a) b = if b = a then unlistedByte else Memory.lookup m b := by
  induction m with
  | nil => simp [Memory.erase, Memory.lookup]
  | cons c m ih =>
    obtain ⟨k, v⟩ := c
    simp only [Memory.erase] at ih
    by_cases hk : k = a
    · subst hk
      by_cases hb : b = k
      · simp_all [Memory.erase]
      · simp_all [Memory.erase, Memory.lookup, Ne.symm hb]
    · by_cases hb : k = b
      · subst hb
        simp [Memory.erase, Memory.lookup, hk]
      · simp_all [Memory.erase, Memory.lookup]

/-- After `insert` of an address not listed before, it reads as the value, every other address as before. -/
theorem lookup_insert {m : List Host.Cell} {a : Nat} (v : Byte) (b : Nat) (h : ∀ c ∈ m, c.1 ≠ a) :
    Memory.lookup (Memory.insert m a v) b = if b = a then v else Memory.lookup m b := by
  induction m with
  | nil => by_cases hb : b = a <;> simp [Memory.insert, Memory.lookup, eq_comm (a := a), hb]
  | cons c m ih =>
    obtain ⟨k, w⟩ := c
    have hk : k ≠ a := h (k, w) (by simp)
    have ih := ih fun c hc => h c (by simp [hc])
    by_cases hlt : a < k
    · by_cases hb : b = a <;> simp [Memory.insert, Memory.lookup, hlt, eq_comm (a := a), hb]
    · by_cases hb : b = a
      · subst hb
        simp [Memory.insert, Memory.lookup, hlt, hk, ih]
      · simp [Memory.insert, Memory.lookup, hlt, hb, ih]

/-- `erase` leaves the address unlisted. -/
theorem not_listed_erase (m : List Host.Cell) (a : Nat) : ∀ c ∈ Memory.erase m a, c.1 ≠ a := by
  simp [Memory.erase]

/-- MemWrite then MemRead (R31), of every memory, canonical or not. -/
@[simp] theorem lookup_store (m : List Host.Cell) (a b : Nat) (v : Byte) :
    Memory.lookup (Memory.store m a v) b = if b = a then v else Memory.lookup m b := by
  unfold Memory.store
  split
  · rename_i hv
    subst hv
    exact lookup_erase m a b
  · rw [lookup_insert v b (not_listed_erase m a), lookup_erase]
    split <;> rfl

/-- The cells of `insert`. -/
theorem mem_insert {m : List Host.Cell} {a : Nat} {v : Byte} {c : Host.Cell}
    (h : c ∈ Memory.insert m a v) : c = (a, v) ∨ c ∈ m := by
  induction m with
  | nil => simpa [Memory.insert] using h
  | cons d m ih =>
    obtain ⟨k, w⟩ := d
    by_cases hlt : a < k
    · simpa [Memory.insert, hlt] using h
    · simp only [Memory.insert, hlt, if_false, List.mem_cons] at h
      rcases h with h | h
      · exact .inr (by simp [h])
      · exact (ih h).imp id fun h => by simp [h]

/-- `insert` of an address not listed keeps the addresses rising. -/
theorem rising_insert {m : List Host.Cell} {a : Nat} (v : Byte) (hn : ∀ c ∈ m, c.1 ≠ a)
    (h : m.Pairwise fun c d => c.1 < d.1) : (Memory.insert m a v).Pairwise fun c d => c.1 < d.1 := by
  induction m with
  | nil => simp [Memory.insert]
  | cons c m ih =>
    obtain ⟨k, w⟩ := c
    have hk : k ≠ a := hn (k, w) (by simp)
    rw [List.pairwise_cons] at h
    by_cases hlt : a < k
    · simp only [Memory.insert, hlt, if_true, List.pairwise_cons, List.mem_cons]
      refine ⟨?_, h⟩
      rintro d (rfl | hd)
      · exact hlt
      · exact hlt.trans (h.1 d hd)
    · simp only [Memory.insert, hlt, if_false, List.pairwise_cons]
      refine ⟨fun d hd => ?_, ih (fun c hc => hn c (by simp [hc])) h.2⟩
      rcases mem_insert hd with rfl | hd
      · show k < a
        omega
      · exact h.1 d hd

/-- Every store keeps the canonical form. -/
theorem wf_store {m : List Host.Cell} {a : Nat} (v : Byte) (ha : a < memSize) (h : Memory.wf m) :
    Memory.wf (Memory.store m a v) := by
  have he : Memory.wf (Memory.erase m a) :=
    ⟨h.1.filter _, fun c hc => h.2 c (List.mem_filter.mp hc).1⟩
  unfold Memory.store
  split
  · exact he
  · rename_i hv
    refine ⟨rising_insert v (not_listed_erase m a) he.1, fun c hc => ?_⟩
    rcases mem_insert hc with rfl | hc
    · exact ⟨ha, hv⟩
    · exact he.2 c hc

/-- Every 8-bit address is one of the 256 cells (R32). -/
theorem byte_lt_memSize (a : Byte) : a.toNat < memSize := a.isLt

/-- MemWrite keeps the canonical form. -/
theorem wf_memWrite {s : State} (a v : Byte) (h : Memory.wf s.mem) : Memory.wf (s.memWrite a v).mem :=
  wf_store v (byte_lt_memSize a) h

/-- A push's store keeps the canonical form. -/
theorem wf_writeTop {s : State} (v : Byte) (h : Memory.wf s.mem) : Memory.wf (s.writeTop v).mem :=
  wf_memWrite s.sp v h

/-- The memory State.reset holds is in canonical form. -/
theorem wf_reset : Memory.wf State.reset.mem := by simp [State.reset, Memory.wf]

/-- A read looks at the memory alone. -/
theorem memRead_congr {s t : State} (h : s.mem = t.mem) (a : Byte) : s.memRead a = t.memRead a := by
  simp [State.memRead, h]

/-- Reading a cell after a push's store. -/
theorem memRead_writeTop (s : State) (v a : Byte) :
    (s.writeTop v).memRead a = if a = s.sp then v else s.memRead a := by
  simp [State.memRead, BitVec.toNat_inj]

end Sys2Proof.Machine
end

