-- ==== Sys2Proof/Laws/Exec.lean ====
section
/-! SUPPORT. Everything an instruction can do: one of the fatal conditions with nothing else changed, or its own effect. Proofs about
`exec` cite `exec_next` and take the cases of `Effect`, without unfolding a meaning. -/

namespace Sys2Proof.Machine

/-- The ALU operation and the operand bytes of an ALU instruction. -/
def aluForm : Instr → Option (AluOp × Byte × Byte)
  | .add a b => some (.add, a, b)
  | .mul a b => some (.mul, a, b)
  | .and a b => some (.and, a, b)
  | .or a b => some (.or, a, b)
  | .xor a b => some (.xor, a, b)
  | .not a b => some (.not, a, b)
  | .shl a b => some (.shl, a, b)
  | .shr a b => some (.shr, a, b)
  | .mod a b => some (.mod, a, b)
  | .cmp a b => some (.cmp, a, b)
  | .ldi _ _ => none
  | .prn _ => none
  | .hlt => none
  | .pop _ => none
  | .push _ => none
  | .call _ => none
  | .ret => none
  | .jmp _ => none
  | .jeq _ => none
  | .jne _ => none

/-- The effect of an instruction that passed every check, on state `s`. -/
inductive Effect (s : State) : Instr → State → Prop
  | ldi {a v : Byte} {r : Reg} (ha : r.val = a.toNat) : Effect s (.ldi a v) ((s.setReg r v).commitPc (.seq 3))
  | prn {a : Byte} {r : Reg} (ha : r.val = a.toNat) : Effect s (.prn a) ((s.emit (s.getReg r)).commitPc (.seq 2))
  | hlt : Effect s .hlt { s with run := .halted }
  | alu {i : Instr} {op : AluOp} {a b : Byte} {ra rb : Reg} {x : Regs} {fl : Flags}
      (hi : aluForm i = some (op, a, b)) (ha : ra.val = a.toNat) (hb : rb.val = b.toNat)
      (hx : aluApply op ra rb s.regs s.flags = .ok x fl) :
      Effect s i (({ s with regs := x, flags := fl } : State).commitPc (.seq 3))
  | pop {a : Byte} {r : Reg} (ha : r.val = a.toNat) :
      Effect s (.pop a) ((s.setReg r s.stackTop).incSp.commitPc (.seq 2))
  | push {a : Byte} {r : Reg} (ha : r.val = a.toNat) :
      Effect s (.push a) ((s.decSp.writeTop (s.decSp.getReg r)).commitPc (.seq 2))
  | call {a : Byte} {r : Reg} (ha : r.val = a.toNat) :
      Effect s (.call a) ((pushReturn s).commitPc (.reg ((pushReturn s).getReg r)))
  | ret : Effect s .ret (s.incSp.commitPc (.mem s.stackTop))
  | jmp {a : Byte} {r : Reg} (ha : r.val = a.toNat) : Effect s (.jmp a) (s.commitPc (.reg (s.getReg r)))
  | jeqTaken {a : Byte} {r : Reg} (ha : r.val = a.toNat) (he : s.flags.e = true) :
      Effect s (.jeq a) (s.commitPc (.reg (s.getReg r)))
  | jeqNot {a : Byte} {r : Reg} (ha : r.val = a.toNat) (he : s.flags.e = false) :
      Effect s (.jeq a) (s.commitPc (.seq 2))
  | jneTaken {a : Byte} {r : Reg} (ha : r.val = a.toNat) (he : s.flags.e = false) :
      Effect s (.jne a) (s.commitPc (.reg (s.getReg r)))
  | jneNot {a : Byte} {r : Reg} (ha : r.val = a.toNat) (he : s.flags.e = true) :
      Effect s (.jne a) (s.commitPc (.seq 2))

/-- Why an instruction raised `InvalidRegisterIndex` (R164): an operand, or NOT's pointer. -/
inductive BadIndex (s : State) : Instr → Prop
  | operand {i : Instr} (h : i.wellFormed = false) : BadIndex s i
  | pointer {a b : Byte} {ra : Reg} (ha : ra.val = a.toNat) (h : 8 ≤ (s.getReg ra).toNat) : BadIndex s (.not a b)

/-- Everything an instruction can do when it answers a next state. -/
inductive ExecNext (s : State) (i : Instr) (t : State) : Prop
  | address (h : addressFault i.mnemonic s.flags.e s.pc = true) (ht : t = raiseFatal .addressOutOfRange s)
  | index (ha : addressFault i.mnemonic s.flags.e s.pc = false) (h : BadIndex s i)
      (ht : t = raiseFatal .invalidRegisterIndex s)
  | divide (ha : addressFault i.mnemonic s.flags.e s.pc = false) (hw : i.wellFormed = true)
      {a b : Byte} {rb : Reg} (hi : i = .mod a b) (hb : rb.val = b.toNat) (h0 : (s.getReg rb).toNat = 0)
      (ht : t = raiseFatal .divideByZero s)
  | effect (ha : addressFault i.mnemonic s.flags.e s.pc = false) (hw : i.wellFormed = true) (h : Effect s i t)

/-- A byte above 7 is no register index. -/
theorem isRegisterIndex_of_ge {a : Byte} (h : 8 ≤ a.toNat) : isRegisterIndex a = false := by
  simp [isRegisterIndex]; omega

/-- The number of a register is a register index. -/
theorem isRegisterIndex_of_reg {a : Byte} {r : Reg} (h : r.val = a.toNat) : isRegisterIndex a = true := by
  have := r.isLt
  simp [isRegisterIndex]; omega

/-- An ALU instruction is `execAlu` with its mnemonic, operation and operands. -/
theorem exec_of_aluForm {i : Instr} {op : AluOp} {a b : Byte} (h : aluForm i = some (op, a, b)) (s : State) :
    exec i s = execAlu i.mnemonic op a b s := by
  cases i <;> cases h <;> rfl

/-- An ALU instruction is three bytes long (R52) and its operands are its two register positions (R51). -/
theorem aluForm_shape {i : Instr} {op : AluOp} {a b : Byte} (h : aluForm i = some (op, a, b)) :
    i.mnemonic.len = 3 ∧ i.wellFormed = (isRegisterIndex a && isRegisterIndex b) ∧
      (op = .not → i = .not a b) ∧ (op = .mod → i = .mod a b) ∧ (op = .cmp → i = .cmp a b) := by
  cases i <;> cases h <;> simp [Instr.wellFormed, Instr.mnemonic, Mnemonic.len, Mnemonic.format, Format.len]

/-- What an ALU instruction past its address check can do. -/
theorem exec_alu_next {i : Instr} {op : AluOp} {a b : Byte} {s t : State} (hi : aluForm i = some (op, a, b))
    (hc : addressFault i.mnemonic s.flags.e s.pc = false) (h : exec i s = .next t) : ExecNext s i t := by
  obtain ⟨hlen, hwf, hnot, hmod, -⟩ := aluForm_shape hi
  rw [exec_of_aluForm hi, execAlu, formatRR, checkAddress, if_neg (by simp [hc])] at h
  rcases withReg_next h with ⟨hge, rfl⟩ | ⟨ra, ha, h⟩
  · exact .index hc (.operand (by simp [hwf, isRegisterIndex_of_ge hge])) rfl
  rcases withReg_next h with ⟨hge, rfl⟩ | ⟨rb, hb, h⟩
  · exact .index hc (.operand (by simp [hwf, isRegisterIndex_of_ge hge])) rfl
  have hw : i.wellFormed = true := by simp [hwf, isRegisterIndex_of_reg ha, isRegisterIndex_of_reg hb]
  rw [aluCore_aluSelect] at h
  rcases hx : aluApply op ra rb s.regs s.flags with ⟨x, fl⟩ | cause
  · rw [hx] at h
    simp only [commitAlu, advance, hlen] at h
    cases h
    exact .effect hc hw (.alu hi ha hb hx)
  · rw [hx] at h
    cases h
    rcases aluApply_cases op ra rb s.regs s.flags with ⟨rfl, he⟩ | ⟨rfl, he⟩ | ⟨-, he⟩ | ⟨-, _, he, -⟩ <;>
      rw [hx] at he <;> cases he
    · refine .index hc ?_ rfl
      rw [hnot rfl]
      refine .pointer ha ?_
      simp only [aluApply, aluNot] at hx
      split at hx
      · cases hx
      · simp only [State.getReg]; omega
    · refine .divide hc hw (hmod rfl) hb ?_ rfl
      simp only [aluApply, aluMod] at hx
      split at hx
      · assumption
      · cases hx

/-- What a format R instruction past its address check can do: raise `InvalidRegisterIndex`, or go on with its register. -/
theorem exec_reg_next {i : Instr} {a : Byte} {s t : State} {k : Reg → Host.Outcome State Fault Refusal}
    (he : exec i s = formatR i.mnemonic a s k) (hwf : i.wellFormed = isRegisterIndex a)
    (hc : addressFault i.mnemonic s.flags.e s.pc = false)
    (hk : ∀ r : Reg, r.val = a.toNat → k r = .next t → Effect s i t) (h : exec i s = .next t) : ExecNext s i t := by
  rw [he, formatR, checkAddress, if_neg (by simp [hc])] at h
  rcases withReg_next h with ⟨hge, rfl⟩ | ⟨r, ha, h⟩
  · exact .index hc (.operand (by rw [hwf, isRegisterIndex_of_ge hge])) rfl
  · exact .effect hc (by rw [hwf, isRegisterIndex_of_reg ha]) (hk r ha h)

/-- Where the address check fails, every instruction raises `AddressOutOfRange` (R163). -/
theorem exec_addressFault {i : Instr} {s : State} (h : addressFault i.mnemonic s.flags.e s.pc = true) :
    exec i s = trap .addressOutOfRange s := by
  have hc : ∀ k, checkAddress i.mnemonic s k = trap .addressOutOfRange s := fun k => by simp [checkAddress, h]
  cases i <;> exact hc _

/-- Everything an instruction can do when it answers a next state. -/
theorem exec_next {i : Instr} {s t : State} (h : exec i s = .next t) : ExecNext s i t := by
  rcases hc : addressFault i.mnemonic s.flags.e s.pc with _ | _
  case true =>
    rw [exec_addressFault hc] at h
    cases h
    exact .address hc rfl
  have hok : ∀ k, checkAddress i.mnemonic s k = k := fun k => by simp [checkAddress, hc]
  cases i
  case ldi a v => exact exec_reg_next rfl rfl hc (fun r ha hk => by cases hk; exact .ldi ha) h
  case prn a => exact exec_reg_next rfl rfl hc (fun r ha hk => by cases hk; exact .prn ha) h
  case pop a => exact exec_reg_next rfl rfl hc (fun r ha hk => by cases hk; exact .pop ha) h
  case push a => exact exec_reg_next rfl rfl hc (fun r ha hk => by cases hk; exact .push ha) h
  case call a => exact exec_reg_next rfl rfl hc (fun r ha hk => by cases hk; exact .call ha) h
  case jmp a => exact exec_reg_next rfl rfl hc (fun r ha hk => by cases hk; exact .jmp ha) h
  case jeq a =>
    refine exec_reg_next rfl rfl hc (fun r ha hk => ?_) h
    rcases he : s.flags.e with _ | _ <;> rw [he] at hk <;> cases hk
    · exact .jeqNot ha he
    · exact .jeqTaken ha he
  case jne a =>
    refine exec_reg_next rfl rfl hc (fun r ha hk => ?_) h
    rcases he : s.flags.e with _ | _ <;> rw [he] at hk <;> cases hk
    · exact .jneTaken ha he
    · exact .jneNot ha he
  case hlt =>
    have h := (hok _).symm.trans h
    cases h
    exact .effect hc rfl .hlt
  case ret =>
    have h := (hok _).symm.trans h
    cases h
    exact .effect hc rfl .ret
  all_goals exact exec_alu_next rfl hc h

end Sys2Proof.Machine
end

