-- ==== Sys2Proof/Laws/PerInstr.lean ====
section
/-! SUPPORT. One lemma per constructor of Instr: the shape of its encoding (R50 to R52), under every opcode map. -/

/-- The encoding of an instruction begins with its mnemonic's opcode, goes on with its operands, and has the mnemonic's length. -/
def Sys2Proof.Laws.EncodedShape.Statement (i : Sys2Proof.Instr) : Prop :=
  ∀ c : Sys2Proof.Config,
    (Sys2Proof.encode c i).head? = some (c.opcodeMap i.mnemonic) ∧
      (Sys2Proof.encode c i).tail = i.operands ∧ (Sys2Proof.encode c i).length = i.mnemonic.len

theorem Sys2Proof.Laws.EncodedShape.ldi (a v : Sys2Proof.Byte) :
    Sys2Proof.Laws.EncodedShape.Statement (.ldi a v) := fun _ => ⟨rfl, rfl, rfl⟩

theorem Sys2Proof.Laws.EncodedShape.prn (a : Sys2Proof.Byte) :
    Sys2Proof.Laws.EncodedShape.Statement (.prn a) := fun _ => ⟨rfl, rfl, rfl⟩

theorem Sys2Proof.Laws.EncodedShape.hlt :
    Sys2Proof.Laws.EncodedShape.Statement .hlt := fun _ => ⟨rfl, rfl, rfl⟩

theorem Sys2Proof.Laws.EncodedShape.add (a b : Sys2Proof.Byte) :
    Sys2Proof.Laws.EncodedShape.Statement (.add a b) := fun _ => ⟨rfl, rfl, rfl⟩

theorem Sys2Proof.Laws.EncodedShape.mul (a b : Sys2Proof.Byte) :
    Sys2Proof.Laws.EncodedShape.Statement (.mul a b) := fun _ => ⟨rfl, rfl, rfl⟩

theorem Sys2Proof.Laws.EncodedShape.and (a b : Sys2Proof.Byte) :
    Sys2Proof.Laws.EncodedShape.Statement (.and a b) := fun _ => ⟨rfl, rfl, rfl⟩

theorem Sys2Proof.Laws.EncodedShape.or (a b : Sys2Proof.Byte) :
    Sys2Proof.Laws.EncodedShape.Statement (.or a b) := fun _ => ⟨rfl, rfl, rfl⟩

theorem Sys2Proof.Laws.EncodedShape.xor (a b : Sys2Proof.Byte) :
    Sys2Proof.Laws.EncodedShape.Statement (.xor a b) := fun _ => ⟨rfl, rfl, rfl⟩

theorem Sys2Proof.Laws.EncodedShape.not (a b : Sys2Proof.Byte) :
    Sys2Proof.Laws.EncodedShape.Statement (.not a b) := fun _ => ⟨rfl, rfl, rfl⟩

theorem Sys2Proof.Laws.EncodedShape.shl (a b : Sys2Proof.Byte) :
    Sys2Proof.Laws.EncodedShape.Statement (.shl a b) := fun _ => ⟨rfl, rfl, rfl⟩

theorem Sys2Proof.Laws.EncodedShape.shr (a b : Sys2Proof.Byte) :
    Sys2Proof.Laws.EncodedShape.Statement (.shr a b) := fun _ => ⟨rfl, rfl, rfl⟩

theorem Sys2Proof.Laws.EncodedShape.mod (a b : Sys2Proof.Byte) :
    Sys2Proof.Laws.EncodedShape.Statement (.mod a b) := fun _ => ⟨rfl, rfl, rfl⟩

theorem Sys2Proof.Laws.EncodedShape.cmp (a b : Sys2Proof.Byte) :
    Sys2Proof.Laws.EncodedShape.Statement (.cmp a b) := fun _ => ⟨rfl, rfl, rfl⟩

theorem Sys2Proof.Laws.EncodedShape.pop (a : Sys2Proof.Byte) :
    Sys2Proof.Laws.EncodedShape.Statement (.pop a) := fun _ => ⟨rfl, rfl, rfl⟩

theorem Sys2Proof.Laws.EncodedShape.push (a : Sys2Proof.Byte) :
    Sys2Proof.Laws.EncodedShape.Statement (.push a) := fun _ => ⟨rfl, rfl, rfl⟩

theorem Sys2Proof.Laws.EncodedShape.call (a : Sys2Proof.Byte) :
    Sys2Proof.Laws.EncodedShape.Statement (.call a) := fun _ => ⟨rfl, rfl, rfl⟩

theorem Sys2Proof.Laws.EncodedShape.ret :
    Sys2Proof.Laws.EncodedShape.Statement .ret := fun _ => ⟨rfl, rfl, rfl⟩

theorem Sys2Proof.Laws.EncodedShape.jmp (a : Sys2Proof.Byte) :
    Sys2Proof.Laws.EncodedShape.Statement (.jmp a) := fun _ => ⟨rfl, rfl, rfl⟩

theorem Sys2Proof.Laws.EncodedShape.jeq (a : Sys2Proof.Byte) :
    Sys2Proof.Laws.EncodedShape.Statement (.jeq a) := fun _ => ⟨rfl, rfl, rfl⟩

theorem Sys2Proof.Laws.EncodedShape.jne (a : Sys2Proof.Byte) :
    Sys2Proof.Laws.EncodedShape.Statement (.jne a) := fun _ => ⟨rfl, rfl, rfl⟩
end

