-- ==== Sys2Proof/Laws/Step.lean ====
section
/-! SUPPORT. Everything one move of the block can do, and the memory after bytes are placed in it. -/

namespace Sys2Proof.Machine

/-- Everything one move of the block can do when it answers a next state. -/
theorem stepWith_next {c : Config} {s t : State} (h : stepWith c s = .next t) :
    (s.resetIn = true ∧ t = s.blockReset) ∨
      (s.resetIn = false ∧ s.run = .running ∧ s.stepEn = false ∧ t = s) ∨
      (s.Ready ∧ stepRunning c s = .next t) := by
  unfold stepWith at h
  split at h
  · rename_i hr
    exact .inl ⟨hr, by cases h; rfl⟩
  · rename_i hr
    have hr : s.resetIn = false := by simpa using hr
    split at h
    · cases h
    · rename_i hrun
      split at h
      · rename_i he
        exact .inr (.inr ⟨⟨hr, hrun, he⟩, h⟩)
      · rename_i he
        exact .inr (.inl ⟨hr, hrun, by simpa using he, by cases h; rfl⟩)

/-- A move of a block that takes a step (R70). -/
theorem stepWith_ready {c : Config} {s : State} (h : s.Ready) : stepWith c s = stepRunning c s := by
  obtain ⟨hr, hrun, he⟩ := h
  simp [stepWith, hr, hrun, he]

/-- Everything a step can do when it answers a next state (R70). -/
theorem stepRunning_next {c : Config} {s t : State} (h : stepRunning c s = .next t) :
    (fetch c s = .unknown ∧ c.unknownOpcodePolicy = .fatal ∧ t = raiseFatal .unknownOpcode s) ∨
      (fetch c s = .unknown ∧ c.unknownOpcodePolicy = .stall ∧ t = s) ∨
      (fetch c s = .outOfRange ∧ t = raiseFatal .addressOutOfRange s) ∨
      ∃ i, fetch c s = .instr i ∧ exec i s = .next t := by
  unfold stepRunning at h
  split at h
  · rename_i hf
    unfold unknownOpcodeStep at h
    split at h
    · rename_i hp
      exact .inl ⟨hf, hp, by cases h; rfl⟩
    · rename_i hp
      exact .inr (.inl ⟨hf, hp, by cases h; rfl⟩)
  · rename_i hf
    exact .inr (.inr (.inl ⟨hf, by cases h; rfl⟩))
  · rename_i i hf
    exact .inr (.inr (.inr ⟨i, hf, h⟩))

/-- The run of a HALTED machine stays where it is (R77). -/
theorem runWith_halted (c : Config) (n : Nat) {s : State} (h : s.run = .halted) : runWith c n s = s := by
  cases n <;> simp [runWith, h]

/-- One more step of the run of a RUNNING machine (R77). -/
theorem runWith_succ {c : Config} {s t : State} (n : Nat) (h : s.run = .running) (hs : stepWith c s = .next t) :
    runWith c (n + 1) s = runWith c n t := by
  simp [runWith, h, hs]

/-- A move that answers a next state, under the host's gate (R78). -/
theorem gatedMove_next {c : Config} {level : Bool} {s t : State} (h : stepWith c (s.driveStepEn level) = .next t) :
    gatedMove c level s = t := by
  simp [gatedMove, h]

/-- A HALTED machine stays as it is whatever the host drives `step_en` to. -/
theorem gatedMove_halted (c : Config) (level : Bool) {s : State} (hr : s.resetIn = false) (h : s.run = .halted) :
    gatedMove c level s = s.driveStepEn level := by
  simp [gatedMove, stepWith, hr, h]

/-- Placing bytes keeps the canonical form. -/
theorem wf_storeBytes {m : List Host.Cell} (vs : List Byte) (a : Nat) (h : Memory.wf m) :
    Memory.wf (storeBytes m a vs) := by
  induction vs generalizing m a with
  | nil => exact h
  | cons v vs ih =>
    unfold storeBytes
    split
    · rename_i ha
      exact ih (a + 1) (wf_store v ha h)
    · exact h

/-- A cell below the first one written keeps its byte. -/
theorem lookup_storeBytes_below (m : List Host.Cell) (vs : List Byte) {a k : Nat} (hk : k < a) :
    Memory.lookup (storeBytes m a vs) k = Memory.lookup m k := by
  induction vs generalizing m a with
  | nil => rfl
  | cons v vs ih =>
    unfold storeBytes
    split
    · rw [ih _ (by omega), lookup_store, if_neg (by omega)]
    · rfl

/-- The cells of placed bytes: each holds its byte, every other cell is as before. -/
theorem lookup_storeBytes (m : List Host.Cell) (vs : List Byte) {a : Nat} (k : Nat)
    (h : a + vs.length ≤ memSize) :
    Memory.lookup (storeBytes m a vs) (a + k) =
      if hk : k < vs.length then vs[k] else Memory.lookup m (a + k) := by
  induction vs generalizing m a k with
  | nil => rfl
  | cons v vs ih =>
    have hlen : (v :: vs).length = vs.length + 1 := rfl
    have ha : a < memSize := by omega
    unfold storeBytes
    rw [if_pos ha]
    cases k with
    | zero =>
      rw [lookup_storeBytes_below _ _ (by omega)]
      simp
    | succ k =>
      have := ih (Memory.store m a v) (a := a + 1) k (by omega)
      rw [show a + (k + 1) = a + 1 + k by omega, this]
      by_cases hk : k < vs.length
      · simp [hk]
      · simp only [hk, dif_neg, not_false_iff, lookup_store, if_neg (show ¬ a + 1 + k = a by omega)]
        simp [hk]

end Sys2Proof.Machine
end

