-- ==== Sys2Proof/Tests/Slice0.lean ====
section
/-! SUPPORT. Tests: ill-formed terms that WellFormed refuses, words written out from the spec's encodings, one-step vectors of
95_test_vectors.md (V<n>), and for every obligation with hypotheses a concrete input that meets them all. -/

namespace Sys2Proof.Tests

open Sys2Proof Sys2Proof.Machine

/-! ### WellFormed -/

/-- A first operand above 7 is refused in every format that has a register there (R56). -/
theorem test_wellFormed_refuses_first_operand :
    ∀ i ∈ [Instr.ldi 8 0, .prn 8, .add 8 0, .mul 8 0, .and 8 0, .or 8 0, .xor 8 0, .not 8 0, .shl 8 0, .shr 8 0, .mod 8 0,
      .cmp 8 0, .pop 8, .push 8, .call 8, .jmp 8, .jeq 8, .jne 0xFF], i.wellFormed = false := by decide

/-- A second operand above 7 is refused in format RR, NOT's among them (R56). -/
theorem test_wellFormed_refuses_second_operand :
    ∀ i ∈ [Instr.add 0 8, .mul 0 8, .and 0 8, .or 0 8, .xor 0 8, .not 0 8, .shl 0 8, .shr 0 8, .mod 0 8, .cmp 0 0xFF],
      i.wellFormed = false := by decide

/-- Register 7 and any immediate are well formed (R11, R57). -/
theorem test_wellFormed_accepts : ∀ i ∈ [Instr.ldi 7 0xFF, .not 7 7, .ret, .hlt, .push 7], i.wellFormed = true := by decide

/-! ### Decode and encode: words written out from R51 and R54 -/

theorem test_decode_ldi : decode defaultConfig [0b10000010, 0x03, 0xFF, 0x47] = .ok (.ldi 3 255) [0x47] := by decide
theorem test_decode_prn : decode defaultConfig [0b01000111, 0x07] = .ok (.prn 7) [] := by decide
theorem test_decode_hlt : decode defaultConfig [0b00000001] = .ok .hlt [] := by decide
theorem test_decode_add : decode defaultConfig [0b10100000, 1, 2] = .ok (.add 1 2) [] := by decide
theorem test_decode_mul : decode defaultConfig [0b10100010, 1, 2] = .ok (.mul 1 2) [] := by decide
theorem test_decode_and : decode defaultConfig [0b10101000, 1, 2] = .ok (.and 1 2) [] := by decide
theorem test_decode_or : decode defaultConfig [0b10101010, 1, 2] = .ok (.or 1 2) [] := by decide
theorem test_decode_xor : decode defaultConfig [0b10101011, 1, 2] = .ok (.xor 1 2) [] := by decide
/-- V5: three bytes although bits 7:6 are 01. -/
theorem test_decode_not : decode defaultConfig [0b01101001, 1, 2] = .ok (.not 1 2) [] := by decide
theorem test_decode_shl : decode defaultConfig [0b10101100, 1, 2] = .ok (.shl 1 2) [] := by decide
theorem test_decode_shr : decode defaultConfig [0b10101101, 1, 2] = .ok (.shr 1 2) [] := by decide
theorem test_decode_mod : decode defaultConfig [0b10100100, 1, 2] = .ok (.mod 1 2) [] := by decide
theorem test_decode_cmp : decode defaultConfig [0b10100111, 1, 2] = .ok (.cmp 1 2) [] := by decide
theorem test_decode_pop : decode defaultConfig [0b01000110, 5] = .ok (.pop 5) [] := by decide
theorem test_decode_push : decode defaultConfig [0b01000101, 5] = .ok (.push 5) [] := by decide
theorem test_decode_call : decode defaultConfig [0b01010000, 5] = .ok (.call 5) [] := by decide
theorem test_decode_ret : decode defaultConfig [0b00010001, 5] = .ok .ret [5] := by decide
theorem test_decode_jmp : decode defaultConfig [0b01010100, 5] = .ok (.jmp 5) [] := by decide
theorem test_decode_jeq : decode defaultConfig [0b01010101, 5] = .ok (.jeq 5) [] := by decide
theorem test_decode_jne : decode defaultConfig [0b01010110, 5] = .ok (.jne 5) [] := by decide

/-- V8 to V16: unknown bytes, rejected by name. -/
theorem test_decode_unknown :
    ∀ b ∈ [(0x00 : Byte), 0xFF, 0xA1, 0xA3, 0x65, 0x66, 0x83, 0x84, 0x57, 0x58, 0x59, 0x5A, 0x48, 0x52, 0x13, 0x81, 0x02, 0xC6],
      decode defaultConfig [b, 0, 0] = .unknownOpcode b := by decide

/-- Known opcodes without their operands, and no bytes at all. -/
theorem test_decode_truncated :
    decode defaultConfig [0x47] = .truncated .prn ∧ decode defaultConfig [0x82, 0] = .truncated .ldi ∧
      decode defaultConfig [] = .empty := by decide

/-- The program of R61, its first instruction and its third. -/
theorem test_encode :
    encode defaultConfig (.ldi 0 8) = [0b10000010, 0b00000000, 0b00001000] ∧
      encode defaultConfig (.mul 0 1) = [0b10100010, 0b00000000, 0b00000001] := by decide

/-- A table word with the opcode in its low byte, with and without its operand bytes. -/
theorem test_decodeTableWord :
    decodeTableWord 24 0x080082 = some (.ldi 0 8) ∧ decodeTableWord 8 0x69 = some (.not 0 0) ∧
      decodeTableWord 16 0xFF0747 = some (.prn 7) ∧ decodeTableWord 8 0x00 = none := by decide

/-- The decoder's format, length and ALU operation (V1, V5). -/
theorem test_instructionDecoder :
    instructionDecoder defaultConfig 0x82 = some { mnemonic := .ldi, format := .ri, len := 3, aluOp := none } ∧
      instructionDecoder defaultConfig 0x69 = some { mnemonic := .not, format := .rr, len := 3, aluOp := some .not } := by
  decide

/-! ### One step: the vectors of 95_test_vectors.md -/

/-- A machine about to run `bytes` at `pc`. -/
def vec (pc : Byte) (bytes : List Byte) (regs : Regs) (mem : List Host.Cell := [])
    (flags : Flags := { e := false, g := false, l := false }) : State :=
  placeAtPc bytes { State.reset with pc := pc, regs := regs, mem := mem, flags := flags }

/-- Whether one step answers a next state with a property. -/
def afterStep (s : State) (p : State → Bool) : Bool :=
  match step s with
  | .next t => p t
  | .fault _ => false
  | .refused _ => false

/-- Whether one step is a fatal condition with this code, which leaves all else alone (R165). -/
def fatalStep (s : State) (code : BitVec 3) : Bool :=
  afterStep s fun t => t.err.code == code && decide (t = { s with run := .halted, err := t.err }) && t.run == .halted

/-- V23: the stack pointer moved. -/
theorem test_ldi_sp : afterStep (vec 0x10 [0x82, 7, 0x80] #v[0, 0, 0, 0, 0, 0, 0, 0xF4])
    (fun t => t.getReg 7 == 0x80 && t.pc == 0x13) = true := by decide
/-- V25, V26: the last address LDI executes at, and the first it does not. -/
theorem test_ldi_top : afterStep (vec 0xFC [0x82, 0, 1] #v[9, 0, 0, 0, 0, 0, 0, 0xF4])
      (fun t => t.getReg 0 == 1 && t.pc == 0xFF) = true ∧
    fatalStep (vec 0xFD [0x82, 0, 1] #v[9, 0, 0, 0, 0, 0, 0, 0xF4]) 2 = true := by decide
/-- V28, V32. -/
theorem test_prn : afterStep (vec 0xFD [0x47, 2] #v[0, 0, 0xFF, 0, 0, 0, 0, 0xF4])
    (fun t => t.out == [255] && t.pc == 0xFF) = true := by decide
/-- V31, V30: nothing emitted. -/
theorem test_prn_fatal : fatalStep (vec 0xFE [0x47, 0] #v[0, 0, 0, 0, 0, 0, 0, 0xF4]) 2 = true ∧
    fatalStep (vec 0x10 [0x47, 9] #v[0, 0, 0, 0, 0, 0, 0, 0xF4]) 3 = true := by decide
/-- V34. -/
theorem test_hlt_top : afterStep (vec 0xFF [0x01] #v[0, 0, 0, 0, 0, 0, 0, 0xF4])
    (fun t => t.run == .halted && t.err == .none && t.pc == 0xFF) = true := by decide
/-- V40, flags as before. -/
theorem test_add_wraps : afterStep (vec 0x10 [0xA0, 0, 1] #v[0xFA, 0x0A, 0, 0, 0, 0, 0, 0xF4] [] ⟨false, false, true⟩)
    (fun t => t.getReg 0 == 4 && t.getReg 1 == 0x0A && t.flags.byte == 4 && t.pc == 0x13) = true := by decide
/-- V42: the same register twice. -/
theorem test_add_doubles : afterStep (vec 0x10 [0xA0, 0, 0] #v[0x80, 0, 0, 0, 0, 0, 0, 0xF4])
    (fun t => t.getReg 0 == 0) = true := by decide
/-- V48, V49. -/
theorem test_mul : afterStep (vec 0x10 [0xA2, 0, 1] #v[0xFF, 0xFF, 0, 0, 0, 0, 0, 0xF4]) (fun t => t.getReg 0 == 1) = true ∧
    afterStep (vec 0x10 [0xA2, 0, 1] #v[0xC8, 3, 0, 0, 0, 0, 0, 0xF4]) (fun t => t.getReg 0 == 0x58) = true := by decide
/-- V52. -/
theorem test_and : afterStep (vec 0x10 [0xA8, 0, 1] #v[0xF0, 0x3C, 0, 0, 0, 0, 0, 0xF4])
    (fun t => t.getReg 0 == 0x30) = true := by decide
/-- V53. -/
theorem test_or : afterStep (vec 0x10 [0xAA, 0, 1] #v[0xF0, 0x3C, 0, 0, 0, 0, 0, 0xF4])
    (fun t => t.getReg 0 == 0xFC) = true := by decide
/-- V54, V55. -/
theorem test_xor : afterStep (vec 0x10 [0xAB, 0, 1] #v[0xF0, 0x3C, 0, 0, 0, 0, 0, 0xF4]) (fun t => t.getReg 0 == 0xCC) = true ∧
    afterStep (vec 0x10 [0xAB, 0, 0] #v[0xA5, 0, 0, 0, 0, 0, 0, 0xF4]) (fun t => t.getReg 0 == 0) = true := by decide
/-- V58, V59: the pointed register, the pointer itself among them. -/
theorem test_not : afterStep (vec 0x10 [0x69, 2, 0] #v[0, 0, 5, 0, 0, 0x0F, 0, 0xF4])
      (fun t => t.getReg 5 == 0xF0 && t.getReg 2 == 5 && t.pc == 0x13) = true ∧
    afterStep (vec 0x10 [0x69, 0, 0] #v[0, 0, 0, 0, 0, 0, 0, 0xF4]) (fun t => t.getReg 0 == 0xFF) = true := by decide
/-- V62, V64: a pointer above 7, and the unused operand above 7. -/
theorem test_not_fatal : fatalStep (vec 0x10 [0x69, 1, 0] #v[0, 8, 0, 0, 0, 0, 0, 0xF4]) 3 = true ∧
    fatalStep (vec 0x10 [0x69, 0, 8] #v[0, 0, 0, 0, 0, 0, 0, 0xF4]) 3 = true := by decide
/-- V68, V69. -/
theorem test_shl : afterStep (vec 0x10 [0xAC, 0, 1] #v[3, 0xFF, 0, 0, 0, 0, 0, 0xF4])
      (fun t => t.getReg 0 == 3 && t.pc == 0x13) = true ∧
    fatalStep (vec 0x10 [0xAC, 0, 8] #v[0, 0, 0, 0, 0, 0, 0, 0xF4]) 3 = true := by decide
/-- V67. -/
theorem test_shr : afterStep (vec 0x10 [0xAD, 0, 1] #v[0x80, 1, 0, 0, 0, 0, 0, 0xF4])
    (fun t => t.getReg 0 == 0x80 && t.pc == 0x13) = true := by decide
/-- V71, V78: unsigned. -/
theorem test_mod : afterStep (vec 0x10 [0xA4, 0, 1] #v[0xFF, 0x10, 0, 0, 0, 0, 0, 0xF4]) (fun t => t.getReg 0 == 0x0F) = true ∧
    afterStep (vec 0x10 [0xA4, 0, 1] #v[0x80, 0xFF, 0, 0, 0, 0, 0, 0xF4]) (fun t => t.getReg 0 == 0x80) = true := by decide
/-- V76, V77. -/
theorem test_mod_by_zero : fatalStep (vec 0x10 [0xA4, 0, 1] #v[7, 0, 0, 0, 0, 0, 0, 0xF4]) 4 = true ∧
    fatalStep (vec 0x10 [0xA4, 0, 0] #v[0, 0, 0, 0, 0, 0, 0, 0xF4]) 4 = true := by decide
/-- V79, V84, V83: unsigned. -/
theorem test_cmp : afterStep (vec 0x10 [0xA7, 0, 1] #v[5, 5, 0, 0, 0, 0, 0, 0xF4]) (fun t => t.flags.byte == 1) = true ∧
    afterStep (vec 0x10 [0xA7, 0, 1] #v[0x80, 0x7F, 0, 0, 0, 0, 0, 0xF4]) (fun t => t.flags.byte == 2) = true ∧
    afterStep (vec 0x10 [0xA7, 0, 1] #v[0, 0xFF, 0, 0, 0, 0, 0, 0xF4]) (fun t => t.flags.byte == 4) = true := by decide
/-- V93: wraps up. -/
theorem test_pop_wraps : afterStep (vec 0x10 [0x46, 2] #v[0, 0, 0, 0, 0, 0, 0, 0xFF] [(0xFF, 0x11)])
    (fun t => t.getReg 2 == 0x11 && t.getReg 7 == 0 && t.pc == 0x12 && t.memRead 0xFF == 0x11) = true := by decide
/-- V95, V96: the popped byte, then incremented. -/
theorem test_pop_sp : afterStep (vec 0x10 [0x46, 7] #v[0, 0, 0, 0, 0, 0, 0, 0xF3] [(0xF3, 0x20)]) (fun t => t.getReg 7 == 0x21) = true ∧
    afterStep (vec 0x10 [0x46, 7] #v[0, 0, 0, 0, 0, 0, 0, 0xF3] [(0xF3, 0xFF)]) (fun t => t.getReg 7 == 0) = true := by decide
/-- V92: wraps down. -/
theorem test_push_wraps : afterStep (vec 0x10 [0x45, 0] #v[0x11, 0, 0, 0, 0, 0, 0, 0])
    (fun t => t.getReg 7 == 0xFF && t.memRead 0xFF == 0x11 && t.pc == 0x12) = true := by decide
/-- V94, V98: the decremented stack pointer is pushed; a push over its own opcode still executes. -/
theorem test_push_sp : afterStep (vec 0x10 [0x45, 7] #v[0, 0, 0, 0, 0, 0, 0, 0xF4])
      (fun t => t.getReg 7 == 0xF3 && t.memRead 0xF3 == 0xF3) = true ∧
    afterStep (vec 0x10 [0x45, 0] #v[0xAB, 0, 0, 0, 0, 0, 0, 0x11])
      (fun t => t.getReg 7 == 0x10 && t.memRead 0x10 == 0xAB && t.pc == 0x12) = true := by decide
/-- V112: the target is read after the push. -/
theorem test_call_sp : afterStep (vec 0x20 [0x50, 7] #v[0, 0, 0, 0, 0, 0, 0, 0xF4])
    (fun t => t.getReg 7 == 0xF3 && t.memRead 0xF3 == 0x22 && t.pc == 0xF3) = true := by decide
/-- V114, V115: the return address 255 fits, 256 does not. -/
theorem test_call_top : afterStep (vec 0xFD [0x50, 0] #v[0x30, 0, 0, 0, 0, 0, 0, 0xF4])
      (fun t => t.getReg 7 == 0xF3 && t.memRead 0xF3 == 0xFF && t.pc == 0x30) = true ∧
    fatalStep (vec 0xFE [0x50, 0] #v[0x30, 0, 0, 0, 0, 0, 0, 0xF4]) 2 = true := by decide
/-- V116, V117. -/
theorem test_ret : afterStep (vec 0xFF [0x11] #v[0, 0, 0, 0, 0, 0, 0, 0x80] [(0x80, 0x33)])
      (fun t => t.pc == 0x33 && t.getReg 7 == 0x81) = true ∧
    afterStep (vec 0x10 [0x11] #v[0, 0, 0, 0, 0, 0, 0, 0xFF] [(0xFF, 0x44)]) (fun t => t.pc == 0x44 && t.getReg 7 == 0) = true := by
  decide
/-- V121, V122, V119: the run goes on. -/
theorem test_jmp : afterStep (vec 0xFE [0x54, 0] #v[5, 0, 0, 0, 0, 0, 0, 0xF4]) (fun t => t.pc == 5 && t.run == .running) = true ∧
    fatalStep (vec 0xFF [0x54] #v[5, 0, 0, 0, 0, 0, 0, 0xF4]) 2 = true := by decide
/-- V133, V134. -/
theorem test_jeq_top : afterStep (vec 0xFE [0x55, 0] #v[5, 0, 0, 0, 0, 0, 0, 0xF4] [] ⟨true, false, false⟩) (fun t => t.pc == 5) = true ∧
    fatalStep (vec 0xFE [0x55, 0] #v[5, 0, 0, 0, 0, 0, 0, 0xF4]) 2 = true := by decide
/-- V125, V132: not taken, and its index checked all the same. -/
theorem test_jeq_not_taken : afterStep (vec 0x10 [0x55, 2] #v[0, 0, 0x20, 0, 0, 0, 0, 0xF4] [] ⟨false, true, false⟩) (fun t => t.pc == 0x12) = true ∧
    fatalStep (vec 0x10 [0x55, 9] #v[0, 0, 0, 0, 0, 0, 0, 0xF4] [] ⟨false, true, false⟩) 3 = true := by decide
/-- V136, V135. -/
theorem test_jne_top : afterStep (vec 0xFE [0x56, 0] #v[5, 0, 0, 0, 0, 0, 0, 0xF4] [] ⟨false, false, true⟩) (fun t => t.pc == 5) = true ∧
    fatalStep (vec 0xFE [0x56, 0] #v[5, 0, 0, 0, 0, 0, 0, 0xF4] [] ⟨true, false, false⟩) 2 = true := by decide
/-- V131, V128. -/
theorem test_jne : afterStep (vec 0x10 [0x56, 2] #v[0, 0, 0x20, 0, 0, 0, 0, 0xF4]) (fun t => t.pc == 0x20) = true ∧
    afterStep (vec 0x10 [0x56, 2] #v[0, 0, 0x20, 0, 0, 0, 0, 0xF4] [] ⟨true, false, false⟩) (fun t => t.pc == 0x12) = true := by decide
/-- V140, V141: an unknown opcode, whatever the address. -/
theorem test_unknown_opcode : fatalStep (vec 0x10 [0x00] #v[0, 0, 0, 0, 0, 0, 0, 0xF4]) 1 = true ∧
    fatalStep (vec 0xFF [0xA1] #v[0, 0, 0, 0, 0, 0, 0, 0xF4]) 1 = true := by decide
/-- V142, V143, V144: the priority of R168. -/
theorem test_priority : fatalStep (vec 0xFD [0xA4, 0, 1] #v[7, 0, 0, 0, 0, 0, 0, 0xF4]) 2 = true ∧
    fatalStep (vec 0xFD [0xA4, 9, 0] #v[7, 0, 0, 0, 0, 0, 0, 0xF4]) 2 = true ∧
    fatalStep (vec 0x10 [0xA4, 0, 9] #v[7, 0, 0, 0, 0, 0, 0, 0xF4]) 3 = true := by decide

/-- A table word placed at `pc` runs as the first instruction after reset. -/
theorem test_withFetchWord : afterStep (State.reset.withFetchWord 24 0x080382) (fun t => t.getReg 3 == 8 && t.pc == 3) = true ∧
    afterStep (State.reset.withFetchWord 8 0x50) (fun t => t.memRead 0xF3 == 2) = true := by decide

/-- V147: the stall policy changes nothing. -/
theorem test_stall : stepWith stallConfig (vec 0x10 [0x00] #v[0, 0, 0, 0, 0, 0, 0, 0xF4]) =
    .next (vec 0x10 [0x00] #v[0, 0, 0, 0, 0, 0, 0, 0xF4]) := rfl

/-- R38: the transactions of POP and PUSH. -/
theorem test_bus : busOf defaultConfig (vec 0x10 [0x45, 0] #v[0x63, 0, 0, 0, 0, 0, 0, 0xF4]) =
      [.read 0x10 0x45, .read 0x11 0, .write 0xF3 0x63] ∧
    busOf defaultConfig (vec 0x10 [0x46, 1] #v[0, 0, 0, 0, 0, 0, 0, 0xF3] [(0xF3, 0x63)]) =
      [.read 0x10 0x46, .read 0x11 1, .read 0xF3 0x63] := by decide

/-- Memory keeps its canonical form: writing the byte an unlisted cell reads as removes the entry. -/
theorem test_memory_canonical : Memory.store [(3, 1), (9, 2)] 5 7 = [(3, 1), (5, 7), (9, 2)] ∧
    Memory.store [(3, 1), (9, 2)] 3 0 = [(9, 2)] ∧ Memory.wf [(3, 1), (5, 7), (9, 2)] := by decide

/-! ### Witnesses: for every obligation with hypotheses, an input that meets them all, each clause at a boundary value -/

/-- A machine at `pc` with registers of every kind: pointers below and above 7, zero, the stack pointer of reset. -/
def wit (pc : Byte) (flags : Flags := { e := false, g := false, l := true }) : State :=
  { State.reset with pc := pc, regs := #v[2, 9, 0, 1, 7, 0xFF, 8, 0xF4], flags := flags, mem := [(0xF2, 5), (0xF4, 0x99)] }

/-- The same, with an instruction at `pc`. -/
def witAt (pc : Byte) (bytes : List Byte) : State := placeAtPc bytes (wit pc)

/-- The witness machine takes a step. -/
theorem witAt_ready (pc : Byte) (bytes : List Byte) : (witAt pc bytes).Ready := ⟨rfl, rfl, rfl⟩

theorem witness_DecodeOfEncodeIsTheInstruction : defaultConfig.Injective := defaultConfig_injective

theorem witness_DecodedBytesAreTheEncoding : decode defaultConfig [0xA7, 7, 0, 0x01] = .ok (.cmp 7 0) [0x01] := by decide

theorem witness_DecoderIsTheOpcodeTable :
    defaultConfig.Injective ∧ defaultConfig.opcodeMap .not = 0x69 ∧ ∀ m : Mnemonic, defaultConfig.opcodeMap m ≠ 0x00 :=
  ⟨defaultConfig_injective, rfl, fun m => by cases m <;> decide⟩

/-- A three-byte instruction as high as it fits, and a one-byte one at the last address. -/
theorem witness_StepRunsTheDecodedInstruction :
    (witAt 0xFC [0x82, 0, 8]).Ready ∧ decode defaultConfig (witAt 0xFC [0x82, 0, 8]).bytesFromPc = .ok (.ldi 0 8) [0] ∧
      (witAt 0xFF [0x11]).Ready ∧ decode defaultConfig (witAt 0xFF [0x11]).bytesFromPc = .ok .ret [] := by decide

/-- An unknown byte at the last address; one and two operand bytes that would lie above 255. -/
theorem witness_UndecodableBytesEndTheRun :
    (witAt 0xFF [0x00]).Ready ∧ decode defaultConfig (witAt 0xFF [0x00]).bytesFromPc = .unknownOpcode 0x00 ∧
      decode defaultConfig (witAt 0xFF [0x54]).bytesFromPc = .truncated .jmp ∧
      decode defaultConfig (witAt 0xFE [0x82, 0]).bytesFromPc = .truncated .ldi := by decide

theorem witness_StallPolicyNeverEnds :
    stallConfig.unknownOpcodePolicy = .stall ∧ (wit 0x10).Ready ∧
      ∀ m : Mnemonic, stallConfig.opcodeMap m ≠ (wit 0x10).memRead (wit 0x10).pc :=
  ⟨rfl, ⟨rfl, rfl, rfl⟩, fun m => by cases m <;> decide⟩

/-- HALTED with `reset` 0, and HALTED with `reset` 1, where there is a next state. -/
theorem witness_HaltedUntilReset :
    (raiseFatal .divideByZero (wit 3)).hasEnded ∧ (raiseFatal .divideByZero (wit 3)).resetIn = false ∧
      ((raiseFatal .divideByZero (wit 3)).driveReset true).hasEnded ∧
      ∃ t, stepWith defaultConfig ((raiseFatal .divideByZero (wit 3)).driveReset true) = .next t :=
  ⟨rfl, rfl, rfl, _, rfl⟩

theorem witness_StepEnableLowHoldsTheState :
    ((wit 3).driveStepEn false).resetIn = false ∧ ((wit 3).driveStepEn false).run = .running ∧
      ((wit 3).driveStepEn false).stepEn = false := by decide

/-- A RUNNING and a HALTED machine with `reset` 0; an instruction that goes on and one that halts. -/
theorem witness_SteppingEqualsRunning :
    (witAt 0x10 [0xA0, 0, 1]).resetIn = false ∧ (raiseFatal .divideByZero (wit 3)).resetIn = false ∧
      (witAt 0x10 [0xA0, 0, 1]).Ready ∧ (witAt 0xFF [0x01]).Ready ∧
      (∃ rest, decode defaultConfig (witAt 0x10 [0xA0, 0, 1]).bytesFromPc = .ok (.add 0 1) rest) ∧
      decode defaultConfig (witAt 0xFF [0x01]).bytesFromPc = .ok .hlt [] ∧
      (∃ t, exec (.add 0 1) (witAt 0x10 [0xA0, 0, 1]) = .next t) ∧ ∃ t, exec .hlt (witAt 0xFF [0x01]) = .next t :=
  ⟨rfl, rfl, witAt_ready _ _, witAt_ready _ _, ⟨_, rfl⟩, rfl, ⟨_, rfl⟩, _, rfl⟩

/-- Two instructions stepped with `step_en` low before, between and after them; the moves held low change nothing (R78). -/
theorem test_gatedRun_steps_twice :
    (gatedRun defaultConfig [false, true, false, false, true, false] (witAt 0x10 [0xA0, 0, 1, 0x47, 0])).pc = 0x15 ∧
      (gatedRun defaultConfig [false, true, false, false, true, false] (witAt 0x10 [0xA0, 0, 1, 0x47, 0])).out = [11] := by decide

theorem witness_ResetInputRestoresTheBlock : ((raiseFatal .unknownOpcode (wit 3)).driveReset true).resetIn = true := rfl

/-- A state with memory listed, a flag set and a byte just pushed. -/
theorem witness_EveryStepKeepsTheInvariant :
    (witAt 0x10 [0x45, 0]).Inv ∧ ∃ t, stepWith defaultConfig (witAt 0x10 [0x45, 0]) = .next t :=
  ⟨⟨by decide, by decide, by decide⟩, _, rfl⟩

/-- The empty image, the longest image and one a byte too long. -/
theorem witness_ImageLoadedFromAddressZero :
    ([] : List Byte).length ≤ 256 ∧ (List.replicate 256 (1 : Byte)).length ≤ 256 ∧ 256 < (List.replicate 257 (1 : Byte)).length :=
  ⟨by decide, Nat.le_of_eq List.length_replicate, by rw [List.length_replicate]; decide⟩

theorem witness_LdiLoadsTheImmediate :
    (wit 252).run = .running ∧ (wit 252).pc.toNat ≤ 252 ∧ (7 : Byte).toNat = (7 : Reg).val := by decide

theorem witness_PrnEmitsTheRegister :
    (wit 253).run = .running ∧ (wit 253).pc.toNat ≤ 253 ∧ (7 : Byte).toNat = (7 : Reg).val := by decide

theorem witness_HltOnlyHalts : (wit 255).run = .running := rfl

theorem witness_AddWritesTheSum :
    (wit 252).run = .running ∧ (wit 252).pc.toNat ≤ 252 ∧ (7 : Byte).toNat = (7 : Reg).val ∧ (0 : Byte).toNat = (0 : Reg).val := by
  decide

theorem witness_MulWritesTheProduct :
    (wit 252).run = .running ∧ (wit 252).pc.toNat ≤ 252 ∧ (5 : Byte).toNat = (5 : Reg).val ∧ (5 : Byte).toNat = (5 : Reg).val := by
  decide

theorem witness_BitwiseInstructionsActOnEachBit :
    (wit 252).run = .running ∧ (wit 252).pc.toNat ≤ 252 ∧ (0 : Byte).toNat = (0 : Reg).val ∧ (7 : Byte).toNat = (7 : Reg).val := by
  decide

/-- The pointer register holds 2; it holds 7, the stack pointer's index; and the unused operand is 7. -/
theorem witness_NotComplementsThePointedRegister :
    (wit 252).run = .running ∧ (wit 252).pc.toNat ≤ 252 ∧ (7 : Byte).toNat ≤ 7 ∧
      (0 : Byte).toNat = (0 : Reg).val ∧ ((wit 252).getReg 0).toNat = (2 : Reg).val ∧
      (4 : Byte).toNat = (4 : Reg).val ∧ ((wit 252).getReg 4).toNat = (7 : Reg).val := by decide

theorem witness_ShiftsOnlyAdvance :
    (wit 252).run = .running ∧ (wit 252).pc.toNat ≤ 252 ∧ (7 : Byte).toNat ≤ 7 ∧ (0 : Byte).toNat ≤ 7 := by decide

theorem witness_ModWritesTheRemainder :
    (wit 252).run = .running ∧ (wit 252).pc.toNat ≤ 252 ∧ (7 : Byte).toNat = (7 : Reg).val ∧ (3 : Byte).toNat = (3 : Reg).val ∧
      ((wit 252).getReg 3).toNat ≠ 0 := by decide

theorem witness_CmpSetsExactlyOneFlag :
    (wit 252).run = .running ∧ (wit 252).pc.toNat ≤ 252 ∧ (5 : Byte).toNat = (5 : Reg).val ∧ (2 : Byte).toNat = (2 : Reg).val := by
  decide

/-- Both clauses: another register, and the stack pointer itself. -/
theorem witness_PopLoadsTheStackTop :
    (wit 253).run = .running ∧ (wit 253).pc.toNat ≤ 253 ∧ (6 : Byte).toNat = (6 : Reg).val ∧ (6 : Reg) ≠ 7 ∧
      (7 : Byte).toNat = (7 : Reg).val := by decide

theorem witness_PushStoresBelowTheStackTop :
    (wit 253).run = .running ∧ (wit 253).pc.toNat ≤ 253 ∧ (0 : Byte).toNat = (0 : Reg).val ∧ (7 : Byte).toNat = (7 : Reg).val := by
  decide

theorem witness_CallPushesTheReturnAddress :
    (wit 253).run = .running ∧ (wit 253).pc.toNat ≤ 253 ∧ (0 : Byte).toNat = (0 : Reg).val ∧ (7 : Byte).toNat = (7 : Reg).val := by
  decide

theorem witness_RetJumpsToTheStackTop : (wit 255).run = .running := rfl

theorem witness_JmpJumpsAndRunsOn :
    (wit 254).run = .running ∧ (wit 254).pc.toNat ≤ 254 ∧ (7 : Byte).toNat = (7 : Reg).val := by decide

/-- The four clauses: each jump taken at 254 and not taken at 253. -/
theorem witness_ConditionalJumpsFollowTheEqualFlag :
    (wit 254).run = .running ∧ (7 : Byte).toNat = (7 : Reg).val ∧
      ((wit 254 ⟨true, false, false⟩).flags.e = true ∧ (wit 254 ⟨true, false, false⟩).pc.toNat ≤ 254) ∧
      ((wit 253 ⟨false, false, true⟩).flags.e = false ∧ (wit 253 ⟨false, false, true⟩).pc.toNat ≤ 253) ∧
      ((wit 254 ⟨false, true, false⟩).flags.e = false ∧ (wit 254 ⟨false, true, false⟩).pc.toNat ≤ 254) ∧
      ((wit 253 ⟨true, false, false⟩).flags.e = true ∧ (wit 253 ⟨true, false, false⟩).pc.toNat ≤ 253) := by decide

/-- The rows of the table at the first address each names, and the address below it; and a next state with that cause. -/
theorem witness_AddressOutOfRangeExactlyByTheTable :
    (wit 253).run = .running ∧ (wit 253).err = .none ∧
      needsAddressAbove255 (.ldi 0 0) false 253 ∧ ¬ needsAddressAbove255 (.ldi 0 0) false 252 ∧
      needsAddressAbove255 (.push 0) false 254 ∧ ¬ needsAddressAbove255 (.push 0) false 253 ∧
      needsAddressAbove255 (.jeq 0) false 254 ∧ ¬ needsAddressAbove255 (.jeq 0) true 254 ∧
      needsAddressAbove255 (.jne 0) true 254 ∧ ¬ needsAddressAbove255 (.jne 0) false 254 ∧
      needsAddressAbove255 (.jmp 0) false 255 ∧ ¬ needsAddressAbove255 (.jmp 0) false 254 ∧
      ¬ needsAddressAbove255 .ret false 255 ∧
      ∃ t, exec (.ldi 0 0) (wit 253) = .next t ∧ t.err = .addressOutOfRange := by
  refine ⟨rfl, rfl, ?_, ?_, ?_, ?_, ?_, ?_, ?_, ?_, ?_, ?_, ?_, _, rfl, rfl⟩ <;> simp [needsAddressAbove255, Instr.mnemonic]

/-- An operand of 8, a NOT whose pointer holds 8, and a next state with that cause. -/
theorem witness_InvalidRegisterIndexExactlyByTheTable :
    (wit 252).run = .running ∧ (wit 252).err = .none ∧ ¬ needsAddressAbove255 (.add 0 8) false 252 ∧
      (Instr.add 0 8).wellFormed = false ∧ notPointsAbove7 (.not 6 0) (wit 252) ∧
      ∃ t, exec (.not 6 0) (wit 252) = .next t ∧ t.err = .invalidRegisterIndex :=
  ⟨rfl, rfl, by simp [needsAddressAbove255, Instr.mnemonic], rfl, ⟨6, 0, 6, rfl, rfl, by decide⟩, _, rfl, rfl⟩

theorem witness_DivideByZeroExactlyByMod :
    (wit 252).run = .running ∧ (wit 252).pc.toNat ≤ 252 ∧ (0 : Byte).toNat = (0 : Reg).val ∧ (2 : Byte).toNat = (2 : Reg).val ∧
      (wit 252).getReg 2 = 0 ∧ (wit 252).err = .none ∧ ∃ t, exec (.mod 0 2) (wit 252) = .next t ∧ t.err = .divideByZero :=
  ⟨rfl, by decide, rfl, rfl, rfl, rfl, _, rfl, rfl⟩

theorem witness_UnsupportedAluOpIsUnreachable :
    (witAt 3 [0xA0, 0, 1]).err ≠ .unsupportedAluOp ∧ ∃ t, stepWith defaultConfig (witAt 3 [0xA0, 0, 1]) = .next t :=
  ⟨by decide, _, rfl⟩

/-- An Ok of CMP and of NOT, an Err of MOD and of NOT, a select code of no operation, and the loop's premises. -/
theorem witness_AluCoreContract :
    (∃ x fl, aluCore (aluSelect .cmp) 0 1 (wit 0).regs (wit 0).flags = .ok x fl) ∧
      (∃ x fl, aluCore (aluSelect .not) 0 1 (wit 0).regs (wit 0).flags = .ok x fl) ∧
      aluCore (aluSelect .mod) 0 2 (wit 0).regs (wit 0).flags = .err .divideByZero ∧
      aluCore (aluSelect .not) 6 2 (wit 0).regs (wit 0).flags = .err .invalidRegisterIndex ∧
      (∀ op, aluSelect op ≠ 0b1111#4) ∧
      (wit 252).run = .running ∧ (wit 252).pc.toNat ≤ 252 ∧ (7 : Byte).toNat = (7 : Reg).val ∧ (0 : Byte).toNat = (0 : Reg).val :=
  ⟨⟨_, _, rfl⟩, ⟨_, _, rfl⟩, rfl, rfl, fun op => by cases op <;> decide, rfl, by decide, rfl, rfl⟩

theorem witness_FatalConditionsArePrecise :
    (witAt 3 [0xA4, 0, 2]).Ready ∧ (witAt 3 [0xA4, 0, 2]).err = .none ∧
      ∃ t, stepWith defaultConfig (witAt 3 [0xA4, 0, 2]) = .next t ∧ t.err ≠ .none :=
  ⟨witAt_ready _ _, rfl, _, rfl, by decide⟩

/-- A clean halt at the last address, and a fatal end. -/
theorem witness_HaltedEnteredByHltOrFatalOnly :
    (witAt 255 [0x01]).Ready ∧ (witAt 255 [0x01]).err = .none ∧
      (∃ t, stepWith defaultConfig (witAt 255 [0x01]) = .next t ∧ t.hasEnded) ∧
      ∃ t, stepWith defaultConfig (witAt 3 [0x00]) = .next t ∧ t.hasEnded :=
  ⟨witAt_ready _ _, rfl, ⟨_, rfl, rfl⟩, _, rfl, rfl⟩

theorem witness_FlagsWrittenByCmpOnly :
    (∀ a b, Instr.shl 0 1 ≠ .cmp a b) ∧ ∃ t, exec (.shl 0 1) (wit 252) = .next t :=
  ⟨by simp, _, rfl⟩

/-- A next state, and a fault. -/
theorem witness_GreaterAndLessAreNeverRead :
    (∃ t, stepWith defaultConfig (witAt 3 [0x56, 0]) = .next t) ∧
      stepWith defaultConfig (raiseFatal .divideByZero (wit 3)) = .fault .halted :=
  ⟨⟨_, rfl⟩, rfl⟩

theorem witness_OutputIsNeverRead :
    (witAt 3 [0x47, 0]).resetIn = false ∧ ∃ t, stepWith defaultConfig (witAt 3 [0x47, 0]) = .next t :=
  ⟨rfl, _, rfl⟩

theorem witness_OutputGrowsByPrnOnly :
    (witAt 253 [0x47, 0]).resetIn = false ∧ (∃ t, stepWith defaultConfig (witAt 253 [0x47, 0]) = .next t) ∧
      outEvent defaultConfig (witAt 253 [0x47, 0]) = some 2 :=
  ⟨rfl, ⟨_, rfl⟩, by decide⟩

theorem witness_MemoryWrittenByPushAndCallOnly :
    ∃ t, exec (.call 0) (wit 253) = .next t ∧ t.mem ≠ (wit 253).mem :=
  ⟨_, rfl, by decide⟩

theorem witness_TransactionsAreTheMemoryAccesses :
    (witAt 253 [0x45, 0]).Ready ∧ ∃ t, stepWith defaultConfig (witAt 253 [0x45, 0]) = .next t :=
  ⟨witAt_ready _ _, _, rfl⟩

/-- The premises, and the same with the stack pointer 0, where it wraps. -/
theorem witness_PushThenPopRoundTrips :
    (wit 251).run = .running ∧ (wit 251).pc.toNat ≤ 251 ∧ (6 : Byte).toNat = (6 : Reg).val ∧ (0 : Byte).toNat = (0 : Reg).val ∧
      (6 : Reg) ≠ 7 ∧ (0 : Reg) ≠ 7 ∧ ((wit 251).setReg 7 0).run = .running ∧ ((wit 251).setReg 7 0).pc.toNat ≤ 251 := by decide

/-- The premises of the CALL; its own next state is a state the RET may start from. -/
theorem witness_CallThenRetRoundTrips :
    (wit 253).run = .running ∧ (wit 253).pc.toNat ≤ 253 ∧ (0 : Byte).toNat = (0 : Reg).val ∧
      ∃ t, exec (.call 0) (wit 253) = .next t ∧ t.run = .running :=
  ⟨rfl, by decide, rfl, _, rfl, rfl⟩

theorem witness_PcMuxSelects : (252 : Byte).toNat + 3 ≤ 255 := by decide

theorem witness_AluOperationsCommute :
    (wit 252).run = .running ∧ (wit 252).pc.toNat ≤ 252 ∧ (0 : Byte).toNat = (0 : Reg).val ∧ (5 : Byte).toNat = (5 : Reg).val := by
  decide

/-- An effect and a fatal condition of the family. -/
theorem witness_FrameOfDestinationRegisterInstructions :
    (∃ t, exec (.add 0 1) (wit 252) = .next t ∧ t.err = .none) ∧ ∃ t, exec (.mod 0 2) (wit 252) = .next t ∧ t.err = .divideByZero :=
  ⟨⟨_, rfl, rfl⟩, _, rfl, rfl⟩

/-- NOT through a pointer, and NOT with a first operand above 7. -/
theorem witness_FrameOfNot :
    (∃ t, exec (.not 0 0) (wit 252) = .next t ∧ t.err = .none) ∧ (0 : Byte).toNat = (0 : Reg).val ∧
      7 < (8 : Byte).toNat ∧ ∃ t, exec (.not 8 0) (wit 252) = .next t :=
  ⟨⟨_, rfl, rfl⟩, rfl, by decide, _, rfl⟩

theorem witness_FrameOfRegisterFreeInstructions :
    (∃ t, exec .hlt (wit 255) = .next t) ∧ (∃ t, exec (.cmp 0 1) (wit 252) = .next t ∧ t.err = .none) ∧
      ∃ t, exec (.jmp 0) (wit 254) = .next t ∧ t.err = .none :=
  ⟨⟨_, rfl⟩, ⟨_, rfl, rfl⟩, _, rfl, rfl⟩

theorem witness_FrameOfStackStores :
    (∃ t, exec (.push 7) (wit 253) = .next t ∧ t.err = .none) ∧ pushAddress (wit 253) = 0xF3 ∧ (0xF4 : Byte) ≠ 0xF3 :=
  ⟨⟨_, rfl, rfl⟩, by decide, by decide⟩

theorem witness_FrameOfStackLoads :
    (∃ t, exec (.pop 0) (wit 253) = .next t ∧ t.err = .none) ∧ ∃ t, exec .ret (wit 255) = .next t :=
  ⟨⟨_, rfl, rfl⟩, _, rfl⟩

end Sys2Proof.Tests
end

section
/-! Proofs about the register file of 10_state.md. -/

namespace Sys2Proof.Machine

/-- `readReg_writeReg` in the integers: the register written holds the non-negative remainder (R12). -/
theorem readReg_writeReg_toNat (x : Regs) (r q : Reg) (v : Int) :
    ((readReg (writeReg x r v) q).toNat : Int) = if q = r then v % 256 else (readReg x q).toNat := by
  rw [readReg_writeReg]
  split
  · exact truncate_toNat v
  · rfl

/-- The registers' reset values (R24): the stack pointer at the top of the stack, every other register 0. -/
theorem readReg_reset (q : Reg) : readReg State.reset.regs q = if q = spIndex then spReset else 0 := by
  revert q
  decide

/-- Settles O19: reading after writing by cases on the register, and the reset values of R24. -/
theorem registerWriteTruncates : Obligations.RegisterWriteTruncates :=
  ⟨readReg_writeReg_toNat, readReg_reset⟩

end Sys2Proof.Machine
end

section
/-! Proofs about memory of 20_memory.md. -/

namespace Sys2Proof.Machine

/-- Reading after a memory write: the byte written at its own address, the earlier byte elsewhere (R31). -/
theorem memRead_memWrite (s : State) (a v b : Byte) :
    (s.memWrite a v).memRead b = if b = a then v else s.memRead b := by
  simp only [State.memRead, State.memWrite_mem, lookup_store, BitVec.toNat_inj]

/-- A memory write keeps every component of the state but memory. -/
theorem memWrite_eq_update_mem (s : State) (a v : Byte) :
    s.memWrite a v = { s with mem := (s.memWrite a v).mem } := rfl

/-- Settles O18: from the rule of a read after a write, and the frame of a write. -/
theorem memoryReadAfterWrite : Obligations.MemoryReadAfterWrite :=
  fun s a b v => ⟨memRead_memWrite s a v b, memWrite_eq_update_mem s a v⟩

end Sys2Proof.Machine
end

section
/-! Proofs about the decoder of 40_execution_loop_and_blocks.md. -/

namespace Sys2Proof

/-- A byte that is no mnemonic's opcode is not decoded (R58). -/
theorem decodeOpcode_eq_none {c : Config} {ir : Byte} (h : ∀ m : Mnemonic, c.opcodeMap m ≠ ir) :
    decodeOpcode c ir = none :=
  Option.eq_none_iff_forall_ne_some.mpr fun m hm => h m (opcodeMap_of_decodeOpcode hm)

/-- Under an injective map the opcode byte of a mnemonic decodes to that mnemonic: the lookup finds one, as the recognised set is
whole, and only one mnemonic has that byte. -/
theorem decodeOpcode_opcodeMap {c : Config} (hc : c.Injective) (m : Mnemonic) :
    decodeOpcode c (c.opcodeMap m) = some m := by
  cases hd : decodeOpcode c (c.opcodeMap m) with
  | none =>
    have hne := List.find?_eq_none.mp hd m (mem_allMnemonics m)
    simp at hne
  | some m' =>
    have heq : m' = m := hc m' m (opcodeMap_of_decodeOpcode hd)
    rw [heq]

/-- What `instruction_decoder` answers for the opcode byte of a mnemonic (R72, R79). -/
theorem instructionDecoder_opcodeMap {c : Config} (hc : c.Injective) (m : Mnemonic) :
    instructionDecoder c (c.opcodeMap m) =
      some { mnemonic := m, format := m.format, len := m.len, aluOp := m.aluOp } := by
  rw [instructionDecoder, decodeOpcode_opcodeMap hc, Option.map_some]

/-- `instruction_decoder` answers Unknown for a byte that is no mnemonic's opcode (R72). -/
theorem instructionDecoder_eq_none {c : Config} {ir : Byte} (h : ∀ m : Mnemonic, c.opcodeMap m ≠ ir) :
    instructionDecoder c ir = none := by
  rw [instructionDecoder, decodeOpcode_eq_none h, Option.map_none]

/-- Settles O3: from the decoder's answer on a mnemonic's opcode byte and on every other byte. -/
theorem decoderIsTheOpcodeTable : Obligations.DecoderIsTheOpcodeTable := by
  intro c ir hc
  refine ⟨?known, instructionDecoder_eq_none⟩
  case known =>
    rintro m rfl
    exact ⟨_, instructionDecoder_opcodeMap hc m, rfl, rfl, rfl, rfl⟩

end Sys2Proof
end

section
/-! Proofs about control transfer of 44_control_transfer.md. -/

namespace Sys2Proof.Machine

/-- The stack pointer's increment as one register update, modulo 256 (R131). -/
theorem incSp_regs_eq_set (s : State) : s.incSp.regs = s.regs.set 7 (s.getReg 7 + 1) :=
  congrArg (fun v => s.regs.set 7 v) (truncate_succ s.sp)

/-- RET needs no address above `pc`, so its address check passes everywhere, at 255 too (R73, R142). -/
theorem checkAddress_ret (s : State) (k : Host.Outcome State Fault Refusal) : checkAddress .ret s k = k :=
  checkAddress_ok s.pc.isLt

/-- RET always completes, with its effect (R142). -/
theorem exec_ret (s : State) : exec .ret s = .next (s.incSp.commitPc (.mem s.stackTop)) :=
  checkAddress_ret s _

/-- Settles O33: RET completes at every address, and its effect is the stack pointer's increment and the jump to the byte read. -/
theorem retJumpsToTheStackTop : Obligations.RetJumpsToTheStackTop := by
  refine ⟨fun _ => rfl, fun s _ => ?_⟩
  rw [exec_ret, ← incSp_regs_eq_set]
  rfl

end Sys2Proof.Machine
end

section
/-! Proofs about exceptions of 60_exceptions.md. -/

namespace Sys2Proof.Machine

/-- The fetch of a byte at `pc` that is no mnemonic's opcode (R70 step 2). -/
theorem fetch_eq_unknown {c : Config} {s : State} (h : ∀ m : Mnemonic, c.opcodeMap m ≠ s.memRead s.pc) :
    fetch c s = .unknown := by
  rw [fetch, decodeOpcode_eq_none h]

/-- A step on an unknown byte is what the unknown-opcode policy makes of it (R162, R170). -/
theorem stepRunning_of_fetch_unknown {c : Config} {s : State} (h : fetch c s = .unknown) :
    stepRunning c s = unknownOpcodeStep c s := by
  rw [stepRunning, h]

/-- The stall policy changes nothing (R170). -/
theorem unknownOpcodeStep_stall {c : Config} (h : c.unknownOpcodePolicy = .stall) (s : State) :
    unknownOpcodeStep c s = .next s := by
  rw [unknownOpcodeStep, h]

/-- A RUNNING machine whose step changes nothing is at the same state after a run of any length. -/
theorem runWith_of_stepWith_self {c : Config} {s : State} (hrun : s.run = .running) (hs : stepWith c s = .next s) (n : Nat) :
    runWith c n s = s := by
  induction n with
  | zero => rfl
  | succ n ih => rw [runWith_succ n hrun hs, ih]

/-- Settles O9: the unknown byte's step is the stall policy's, which changes nothing, so every further step is that same one. -/
theorem stallPolicyNeverEnds : Obligations.StallPolicyNeverEnds := by
  intro c s hstall hready hunknown
  have hstep : stepWith c s = .next s := by
    rw [stepWith_ready hready, stepRunning_of_fetch_unknown (fetch_eq_unknown hunknown), unknownOpcodeStep_stall hstall]
  obtain ⟨_, hrun, _⟩ := hready
  exact ⟨hstep, runWith_of_stepWith_self hrun hstep⟩

end Sys2Proof.Machine
end

section
/-! Proofs about the encoding of 30_encoding.md: decoding and encoding are each other's inverse, the length
table, the default opcode map. -/

namespace Sys2Proof

@[simp] theorem mnemonic_assemble (m : Mnemonic) (a b : Byte) : (assemble m a b).mnemonic = m := by
  cases m <;> rfl

/-- An assembled instruction keeps as many operand bytes as its format has (R51). -/
@[simp] theorem operands_assemble (m : Mnemonic) (a b : Byte) :
    (assemble m a b).operands = [a, b].take (m.format.len - 1) := by
  cases m <;> rfl

/-- An opcode byte outside the map ends the decoding (R58). -/
theorem decode_unknown {c : Config} {ir : Byte} (h : decodeOpcode c ir = none) (rest : List Byte) :
    decode c (ir :: rest) = .unknownOpcode ir := by
  simp [decode, h]

/-- The opcode of an instruction and its operands decode to it, whatever follows. -/
theorem decode_operands {c : Config} {ir : Byte} (i : Instr) (h : decodeOpcode c ir = some i.mnemonic) (rest : List Byte) :
    decode c (ir :: (i.operands ++ rest)) = .ok i rest := by
  cases i <;> simp only [decode, h] <;> rfl

/-- After a known opcode byte an operand byte is missing, or the bytes are the operands of an instruction of that mnemonic. -/
theorem decode_known {c : Config} {ir : Byte} {m : Mnemonic} (h : decodeOpcode c ir = some m) (bytes : List Byte) :
    decode c (ir :: bytes) = .truncated m ∨
      ∃ i rest, decode c (ir :: bytes) = .ok i rest ∧ i.mnemonic = m ∧ bytes = i.operands ++ rest := by
  simp only [decode, h]
  split
  case h_5 => exact .inl rfl
  all_goals
    rename_i hf
    exact .inr ⟨_, _, rfl, mnemonic_assemble .., by simp [hf, Format.len]⟩

/-- Bytes that decode are a known opcode, the instruction's operands and the bytes left over. -/
theorem decode_ok {c : Config} {bytes rest : List Byte} {i : Instr} (h : decode c bytes = .ok i rest) :
    ∃ ir, decodeOpcode c ir = some i.mnemonic ∧ bytes = ir :: (i.operands ++ rest) := by
  cases bytes with
  | nil => cases h
  | cons ir bytes =>
    cases hd : decodeOpcode c ir with
    | none =>
      rw [decode_unknown hd] at h
      cases h
    | some m =>
      rcases decode_known hd bytes with ht | ⟨i', rest', hok, rfl, rfl⟩
      · rw [ht] at h
        cases h
      · rw [hok] at h
        cases h
        exact ⟨ir, hd, rfl⟩

/-- Settles O1: under an injective map the opcode byte gives the mnemonic back, and the operands follow it. -/
theorem decodeOfEncodeIsTheInstruction : Obligations.DecodeOfEncodeIsTheInstruction :=
  fun _ i rest hc => decode_operands i (decodeOpcode_opcodeMap hc i.mnemonic) rest

/-- Settles O2: the opcode byte that was looked up is the mnemonic's own, and the other bytes are the operands. -/
theorem decodedBytesAreTheEncoding : Obligations.DecodedBytesAreTheEncoding := by
  intro c bytes rest i h
  obtain ⟨ir, hd, rfl⟩ := decode_ok h
  rw [encode, opcodeMap_of_decodeOpcode hd, List.cons_append]

/-- Settles O4: each mnemonic's length, row by row. -/
theorem lengthTable : Obligations.LengthTable := by
  refine ⟨?one, ?two, ?three⟩ <;> decide

/-- Settles O5: the words decode one by one. -/
theorem specWordsDecode : Obligations.SpecWordsDecode := by
  unfold Obligations.SpecWordsDecode
  decide

/-- The default map leaves 236 of the 256 byte values unknown (R58). -/
theorem defaultMap_unknown_count :
    ((List.range 256).filter fun n => (decodeOpcode defaultConfig (BitVec.ofNat 8 n)).isNone).length = 236 := by
  decide +kernel

/-- Settles O6: the map is injective, and the unknown byte values are counted. -/
theorem defaultMapLeaves236Unknown : Obligations.DefaultMapLeaves236Unknown :=
  ⟨defaultConfig_injective, defaultMap_unknown_count⟩

end Sys2Proof
end

section
/-! Proofs about exec, forwards: where an instruction fails a check it raises the fatal condition, where it passes them it has its
effect; so exec always answers a next state, and the one `ExecNext` describes. -/

namespace Sys2Proof.Machine

/-- A byte whose value is a register's number is that number. -/
theorem eq_ofNat_of_reg {a : Byte} {r : Reg} (h : r.val = a.toNat) : a = BitVec.ofNat 8 r.val := by
  rw [h, BitVec.ofNat_toNat, BitVec.setWidth_eq]

/-- Without an address fault the address check goes on (R73). -/
theorem checkAddress_pass {m : Mnemonic} {s : State} (h : addressFault m s.flags.e s.pc = false)
    (k : Host.Outcome State Fault Refusal) : checkAddress m s k = k := by
  rw [checkAddress, if_neg (by simp [h])]

/-- Format R past the address check, with a register as its operand. -/
theorem formatR_reg {m : Mnemonic} {a : Byte} {r : Reg} {s : State} (k : Reg → Host.Outcome State Fault Refusal)
    (hc : addressFault m s.flags.e s.pc = false) (ha : r.val = a.toNat) : formatR m a s k = k r := by
  rw [formatR, checkAddress_pass hc, eq_ofNat_of_reg ha, withReg_ok]

/-- Format RR past the address check, with registers as its operands. -/
theorem formatRR_reg {m : Mnemonic} {a b : Byte} {ra rb : Reg} {s : State} (k : Reg → Reg → Host.Outcome State Fault Refusal)
    (hc : addressFault m s.flags.e s.pc = false) (ha : ra.val = a.toNat) (hb : rb.val = b.toNat) :
    formatRR m a b s k = k ra rb := by
  rw [formatRR, checkAddress_pass hc, eq_ofNat_of_reg ha, eq_ofNat_of_reg hb, withReg_ok, withReg_ok]

/-- An operand byte that is no register index is above 7. -/
theorem ge_of_isRegisterIndex {a : Byte} (h : isRegisterIndex a = false) : 8 ≤ a.toNat := by
  simpa [isRegisterIndex, Nat.succ_le_iff] using h

/-- Format R past the address check, with an operand above 7 (R74). -/
theorem formatR_bad {m : Mnemonic} {a : Byte} {s : State} (k : Reg → Host.Outcome State Fault Refusal)
    (hc : addressFault m s.flags.e s.pc = false) (ha : isRegisterIndex a = false) :
    formatR m a s k = trap .invalidRegisterIndex s := by
  rw [formatR, checkAddress_pass hc, withReg_fault (ge_of_isRegisterIndex ha)]

/-- Format RR past the address check, with an operand above 7 (R74). -/
theorem formatRR_bad {m : Mnemonic} {a b : Byte} {s : State} (k : Reg → Reg → Host.Outcome State Fault Refusal)
    (hc : addressFault m s.flags.e s.pc = false) (h : (isRegisterIndex a && isRegisterIndex b) = false) :
    formatRR m a b s k = trap .invalidRegisterIndex s := by
  rw [formatRR, checkAddress_pass hc]
  rcases Nat.lt_or_ge a.toNat 8 with ha | ha
  · have hreg : isRegisterIndex a = true := isRegisterIndex_of_reg (r := ⟨a.toNat, ha⟩) rfl
    have hb : isRegisterIndex b = false := by simpa [hreg] using h
    rw [withReg_of_le ha, withReg_fault (ge_of_isRegisterIndex hb)]
  · rw [withReg_fault ha]

/-- An ALU instruction past its checks: `alu_core`'s answer, committed by the loop (R81). -/
theorem exec_alu {i : Instr} {op : AluOp} {a b : Byte} {ra rb : Reg} {s : State} (hi : aluForm i = some (op, a, b))
    (hc : addressFault i.mnemonic s.flags.e s.pc = false) (ha : ra.val = a.toNat) (hb : rb.val = b.toNat) :
    exec i s = commitAlu i.mnemonic (aluApply op ra rb s.regs s.flags) s := by
  rw [exec_of_aluForm hi, execAlu, formatRR_reg _ hc ha hb, aluCore_aluSelect]

/-- On Ok the loop commits the registers and flags and goes on at `pc + 3` (R81). -/
theorem exec_alu_ok {i : Instr} {op : AluOp} {a b : Byte} {ra rb : Reg} {x : Regs} {fl : Flags} {s : State}
    (hi : aluForm i = some (op, a, b)) (hc : addressFault i.mnemonic s.flags.e s.pc = false) (ha : ra.val = a.toNat)
    (hb : rb.val = b.toNat) (hx : aluApply op ra rb s.regs s.flags = .ok x fl) :
    exec i s = .next (({ s with regs := x, flags := fl } : State).commitPc (.seq 3)) := by
  obtain ⟨hlen, -⟩ := aluForm_shape hi
  rw [exec_alu hi hc ha hb, hx, commitAlu, advance, hlen]

/-- On Err the loop raises the cause (R81). -/
theorem exec_alu_err {i : Instr} {op : AluOp} {a b : Byte} {ra rb : Reg} {cause : Cause} {s : State}
    (hi : aluForm i = some (op, a, b)) (hc : addressFault i.mnemonic s.flags.e s.pc = false) (ha : ra.val = a.toNat)
    (hb : rb.val = b.toNat) (hx : aluApply op ra rb s.regs s.flags = .err cause) : exec i s = trap cause s := by
  rw [exec_alu hi hc ha hb, hx, commitAlu]

/-- An instruction that passes every check has its effect. -/
theorem exec_of_effect {i : Instr} {s t : State} (hc : addressFault i.mnemonic s.flags.e s.pc = false)
    (h : Effect s i t) : exec i s = .next t := by
  cases h with
  | ldi ha => exact formatR_reg _ hc ha
  | prn ha => exact formatR_reg _ hc ha
  | hlt => exact checkAddress_pass hc _
  | alu hi ha hb hx => exact exec_alu_ok hi hc ha hb hx
  | pop ha => exact formatR_reg _ hc ha
  | push ha => exact formatR_reg _ hc ha
  | call ha => exact formatR_reg _ hc ha
  | ret => exact checkAddress_pass hc _
  | jmp ha => exact formatR_reg _ hc ha
  | jeqTaken ha he => exact (formatR_reg _ hc ha).trans (if_pos he)
  | jeqNot ha he => exact (formatR_reg _ hc ha).trans (if_neg (by simp [he]))
  | jneTaken ha he => exact (formatR_reg _ hc ha).trans (if_neg (by simp [he]))
  | jneNot ha he => exact (formatR_reg _ hc ha).trans (if_pos he)

/-- An operand above 7 is raised past the address check, by every instruction (R74, R164). -/
theorem exec_bad_operand {i : Instr} {s : State} (hc : addressFault i.mnemonic s.flags.e s.pc = false)
    (h : i.wellFormed = false) : exec i s = trap .invalidRegisterIndex s := by
  cases i
  case hlt => cases h
  case ret => cases h
  case ldi | prn | pop | push | call | jmp | jeq | jne => exact formatR_bad _ hc h
  all_goals exact formatRR_bad _ hc h

/-- A bad register index is raised past the address check (R164): an operand, or NOT's pointer. -/
theorem exec_bad_index {i : Instr} {s : State} (hc : addressFault i.mnemonic s.flags.e s.pc = false)
    (h : BadIndex s i) : exec i s = trap .invalidRegisterIndex s := by
  cases h with
  | operand hw => exact exec_bad_operand hc hw
  | @pointer a b ra ha h8 =>
    rcases Nat.lt_or_ge b.toNat 8 with hb | hb
    · have hx : aluApply .not ra ⟨b.toNat, hb⟩ s.regs s.flags = .err .invalidRegisterIndex :=
        dif_neg (Nat.not_lt.mpr h8)
      exact exec_alu_err rfl hc ha rfl hx
    · exact exec_bad_operand hc (by simp [Instr.wellFormed, isRegisterIndex_of_ge hb])

/-- MOD past its checks with a zero divisor (R166). -/
theorem exec_divide {a b : Byte} {ra rb : Reg} {s : State} (hc : addressFault .mod s.flags.e s.pc = false)
    (ha : ra.val = a.toNat) (hb : rb.val = b.toNat) (h0 : (s.getReg rb).toNat = 0) :
    exec (.mod a b) s = trap .divideByZero s := by
  have hx : aluApply .mod ra rb s.regs s.flags = .err .divideByZero := if_pos h0
  exact exec_alu_err rfl hc ha hb hx

/-- The number of a register index, as a register. -/
theorem reg_of_isRegisterIndex {a : Byte} (h : isRegisterIndex a = true) : ∃ r : Reg, r.val = a.toNat := by
  have h7 : a.toNat ≤ 7 := by simpa [isRegisterIndex] using h
  exact ⟨⟨a.toNat, by omega⟩, rfl⟩

/-- What `ExecNext` describes is what exec answers: its cases are disjoint and each is taken. -/
theorem exec_of_next {i : Instr} {s t : State} (h : ExecNext s i t) : exec i s = .next t := by
  cases h with
  | address hc ht => rw [exec_addressFault hc, ht, trap]
  | index hc hbad ht => rw [exec_bad_index hc hbad, ht, trap]
  | divide hc hw hi hb h0 ht =>
    subst hi
    obtain ⟨ra, ha⟩ := reg_of_isRegisterIndex (Bool.and_eq_true_iff.mp hw).1
    rw [exec_divide hc ha hb h0, ht, trap]
  | effect hc _ he => exact exec_of_effect hc he

/-- `k` answers a next state. -/
def Answers (k : Host.Outcome State Fault Refusal) : Prop := ∃ t, k = .next t

theorem answers_next (t : State) : Answers (.next t) := ⟨t, rfl⟩

/-- The address check raises its cause as a next state, or goes on (R165). -/
theorem answers_checkAddress {m : Mnemonic} {s : State} {k : Host.Outcome State Fault Refusal} (h : Answers k) :
    Answers (checkAddress m s k) := by
  unfold checkAddress
  split
  · exact answers_next _
  · exact h

/-- The index check raises its cause as a next state, or goes on (R165). -/
theorem answers_withReg {a : Byte} {s : State} {k : Reg → Host.Outcome State Fault Refusal} (h : ∀ r, Answers (k r)) :
    Answers (withReg a s k) := by
  unfold withReg
  split
  · exact h _
  · exact answers_next _

theorem answers_formatR {m : Mnemonic} {a : Byte} {s : State} {k : Reg → Host.Outcome State Fault Refusal}
    (h : ∀ r, Answers (k r)) : Answers (formatR m a s k) :=
  answers_checkAddress (answers_withReg h)

/-- The loop answers a next state on either answer of `alu_core` (R81). -/
theorem answers_commitAlu (m : Mnemonic) (r : AluResult) (s : State) : Answers (commitAlu m r s) := by
  cases r <;> exact answers_next _

theorem answers_execAlu (m : Mnemonic) (op : AluOp) (a b : Byte) (s : State) : Answers (execAlu m op a b s) :=
  answers_checkAddress (answers_withReg fun _ => answers_withReg fun _ => answers_commitAlu _ _ _)

/-- Settles O36: every check answers a next state or goes on, and so does what each instruction goes on with. -/
theorem execAlwaysAnswersANextState : Obligations.ExecAlwaysAnswersANextState := by
  intro i s
  cases i
  case hlt | ret => exact answers_checkAddress (answers_next _)
  case ldi | prn | pop | push | call | jmp => exact answers_formatR fun _ => answers_next _
  case jeq | jne =>
    refine answers_formatR fun _ => ?_
    split <;> exact answers_next _
  all_goals exact answers_execAlu ..

end Sys2Proof.Machine
end

section
/-! Proofs about the frames of the instructions: what each leaves unchanged, from the cases of its effect. -/

namespace Sys2Proof.Machine

variable {i : Instr} {s t : State} {q : Reg}

/-- The register an ALU operation writes (R110 to R120): `x[a]`, for NOT the one `x[a]` points to, none for SHL, SHR and CMP. -/
def aluWrites (op : AluOp) (a : Reg) (x : Regs) (q : Reg) : Prop :=
  match op with
  | .not => q.val = (readReg x a).toNat
  | .shl | .shr | .cmp => False
  | .add | .mul | .and | .or | .xor | .mod => q = a

/-- The registers an instruction may write (R11): its destination, and the stack pointer. -/
def mayWrite (i : Instr) (s : State) (q : Reg) : Prop :=
  match i with
  | .ldi a _ => q.val = a.toNat
  | .pop a => q.val = a.toNat ∨ q = spIndex
  | .push _ | .call _ | .ret => q = spIndex
  | i => ∃ op a b, aluForm i = some (op, a, b) ∧ ∃ ra : Reg, ra.val = a.toNat ∧ aluWrites op ra s.regs q

theorem mayWrite_of_aluForm {op : AluOp} {a b : Byte} {ra : Reg} (hi : aluForm i = some (op, a, b)) (ha : ra.val = a.toNat)
    (h : aluWrites op ra s.regs q) : mayWrite i s q := by
  cases i <;> cases hi <;> exact ⟨_, _, _, rfl, ra, ha, h⟩

/-- A register file keeps every register but the one written. -/
theorem readReg_writeReg_of_ne {x : Regs} {r q : Reg} (v : Int) (h : q ≠ r) : readReg (writeReg x r v) q = readReg x q := by
  rw [readReg_writeReg, if_neg h]

/-- An ALU operation keeps the registers it does not write. -/
theorem aluApply_readReg {op : AluOp} {a b : Reg} {x x' : Regs} {fl fl' : Flags} (h : aluApply op a b x fl = .ok x' fl')
    (hq : ¬ aluWrites op a x q) : readReg x' q = readReg x q := by
  cases op
  case not =>
    simp only [aluApply, aluNot] at h
    split at h <;> cases h
    exact readReg_writeReg_of_ne _ fun e => hq (congrArg Fin.val e)
  case mod =>
    simp only [aluApply, aluMod] at h
    split at h <;> cases h
    exact readReg_writeReg_of_ne _ hq
  case shl | shr | cmp => cases h; rfl
  all_goals cases h; exact readReg_writeReg_of_ne _ hq

/-- No ALU operation but CMP writes a flag (R17). -/
theorem aluApply_flags {op : AluOp} {a b : Reg} {x x' : Regs} {fl fl' : Flags} (h : aluApply op a b x fl = .ok x' fl')
    (hop : op ≠ .cmp) : fl' = fl := by
  rcases aluApply_cases op a b x fl with ⟨-, he⟩ | ⟨-, he⟩ | ⟨hcmp, -⟩ | ⟨-, _, he, -⟩
  case inr.inr.inl => exact absurd hcmp hop
  all_goals rw [he] at h; cases h
  rfl

/-! ### Of an effect -/

/-- An effect keeps the registers its instruction does not write. -/
theorem Effect.getReg_eq (h : Effect s i t) (hq : ¬ mayWrite i s q) : t.getReg q = s.getReg q := by
  cases h with
  | ldi ha => exact readReg_writeReg_of_ne _ fun e => hq (e ▸ ha)
  | alu hi ha _ hx => exact aluApply_readReg hx fun hw => hq (mayWrite_of_aluForm hi ha hw)
  | pop ha =>
    have hsp : q ≠ spIndex := fun e => hq (.inr e)
    exact (readReg_writeReg_of_ne _ hsp).trans (readReg_writeReg_of_ne _ fun e => hq (.inl (e ▸ ha)))
  | push | call | ret => exact readReg_writeReg_of_ne _ hq
  | _ => rfl

/-- No effect but CMP's writes a flag (R17). -/
theorem Effect.flags_eq (h : Effect s i t) (hi : i.mnemonic ≠ .cmp) : t.flags = s.flags := by
  cases h with
  | alu hform _ _ hx =>
    obtain ⟨-, -, -, -, hcmp⟩ := aluForm_shape hform
    exact aluApply_flags hx fun hop => hi (by rw [hcmp hop]; rfl)
  | _ => rfl

/-- An effect's output is the byte its instruction emits, if any (R22, R101). -/
theorem Effect.out_eq (h : Effect s i t) : t.out = s.out ++ (emittedBy i s).toList := by
  cases h with
  | @prn a r ha =>
    have hr : (⟨a.toNat, ha ▸ r.isLt⟩ : Reg) = r := Fin.ext ha.symm
    have hlt : a.toNat < 8 := ha ▸ r.isLt
    simp [emittedBy, hlt, hr]
  | alu hi => cases i <;> cases hi <;> exact (List.append_nil _).symm
  | _ => exact (List.append_nil _).symm

/-- No effect but PUSH's and CALL's writes memory (R30). -/
theorem Effect.mem_eq (h : Effect s i t) (hpush : i.mnemonic ≠ .push) (hcall : i.mnemonic ≠ .call) : t.mem = s.mem := by
  cases h with
  | push => exact absurd rfl hpush
  | call => exact absurd rfl hcall
  | _ => rfl

/-- An effect writes no cell but the one a push stores to. -/
theorem Effect.memRead_eq (h : Effect s i t) {addr : Byte} (ha : addr ≠ pushAddress s) : t.memRead addr = s.memRead addr := by
  cases h with
  | push | call => exact (memRead_writeTop ..).trans (if_neg ha)
  | _ => rfl

/-- No effect but HLT's writes `run`. -/
theorem Effect.run_eq (h : Effect s i t) (hi : i.mnemonic ≠ .hlt) : t.run = s.run := by
  cases h with
  | hlt => exact absurd rfl hi
  | _ => rfl

/-- No effect writes `err`. -/
theorem Effect.err_eq (h : Effect s i t) : t.err = s.err := by cases h <;> rfl

/-- No effect writes the `reset` input. -/
theorem Effect.resetIn_eq (h : Effect s i t) : t.resetIn = s.resetIn := by cases h <;> rfl

/-- No effect writes the `step_en` input. -/
theorem Effect.stepEn_eq (h : Effect s i t) : t.stepEn = s.stepEn := by cases h <;> rfl

/-! ### Of an instruction -/

/-- The fatal conditions an instruction of a mnemonic can raise (R163 to R166). -/
def causesOf (m : Mnemonic) : List Cause :=
  if m = .mod then [.addressOutOfRange, .invalidRegisterIndex, .divideByZero] else [.addressOutOfRange, .invalidRegisterIndex]

/-- An instruction raises one of its fatal conditions, or has its effect. -/
theorem exec_fatal_or_effect (h : exec i s = .next t) :
    (∃ cause ∈ causesOf i.mnemonic, t = raiseFatal cause s) ∨ Effect s i t := by
  have hmem : ∀ cause ∈ [Cause.addressOutOfRange, .invalidRegisterIndex], cause ∈ causesOf i.mnemonic := by
    unfold causesOf
    split <;> simp
  cases exec_next h with
  | address _ ht => exact .inl ⟨_, hmem _ (by simp), ht⟩
  | index _ _ ht => exact .inl ⟨_, hmem _ (by simp), ht⟩
  | divide _ _ hi _ _ ht => exact .inl ⟨_, by simp [causesOf, hi, Instr.mnemonic], ht⟩
  | effect _ _ he => exact .inr he

theorem exec_getReg (h : exec i s = .next t) (hq : ¬ mayWrite i s q) : t.getReg q = s.getReg q := by
  rcases exec_fatal_or_effect h with ⟨_, -, rfl⟩ | he
  · rfl
  · exact he.getReg_eq hq

theorem exec_flags (h : exec i s = .next t) (hi : i.mnemonic ≠ .cmp) : t.flags = s.flags := by
  rcases exec_fatal_or_effect h with ⟨_, -, rfl⟩ | he
  · rfl
  · exact he.flags_eq hi

theorem exec_out (h : exec i s = .next t) (hi : i.mnemonic ≠ .prn) : t.out = s.out := by
  rcases exec_fatal_or_effect h with ⟨_, -, rfl⟩ | he
  · rfl
  · have hnone : emittedBy i s = none := by
      cases i
      case prn => exact absurd rfl hi
      all_goals rfl
    rw [he.out_eq, hnone]
    exact List.append_nil _

theorem exec_mem (h : exec i s = .next t) (hpush : i.mnemonic ≠ .push) (hcall : i.mnemonic ≠ .call) : t.mem = s.mem := by
  rcases exec_fatal_or_effect h with ⟨_, -, rfl⟩ | he
  · rfl
  · exact he.mem_eq hpush hcall

theorem exec_memRead (h : exec i s = .next t) {addr : Byte} (ha : addr ≠ pushAddress s) : t.memRead addr = s.memRead addr := by
  rcases exec_fatal_or_effect h with ⟨_, -, rfl⟩ | he
  · rfl
  · exact he.memRead_eq ha

theorem exec_resetIn (h : exec i s = .next t) : t.resetIn = s.resetIn := by
  rcases exec_fatal_or_effect h with ⟨_, -, rfl⟩ | he
  · rfl
  · exact he.resetIn_eq

theorem exec_stepEn (h : exec i s = .next t) : t.stepEn = s.stepEn := by
  rcases exec_fatal_or_effect h with ⟨_, -, rfl⟩ | he
  · rfl
  · exact he.stepEn_eq

/-- An instruction that does not store keeps all of memory and the inputs. -/
theorem exec_memoryAndInputs (h : exec i s = .next t) (hpush : i.mnemonic ≠ .push) (hcall : i.mnemonic ≠ .call) :
    keepsMemoryAndInputs s t :=
  ⟨memRead_congr (exec_mem h hpush hcall), exec_resetIn h, exec_stepEn h⟩

/-- An instruction other than HLT keeps `run` and `err`, or raises one of its fatal conditions (R165). -/
theorem exec_runAndErr (h : exec i s = .next t) (hi : i.mnemonic ≠ .hlt) : keepsRunAndErr (causesOf i.mnemonic) s t :=
  (exec_fatal_or_effect h).symm.imp (fun he => ⟨he.run_eq hi, he.err_eq⟩) id

theorem keepsRunAndErr_mono {causes causes' : List Cause} (hsub : causes ⊆ causes') (h : keepsRunAndErr causes s t) :
    keepsRunAndErr causes' s t :=
  h.imp_right fun ⟨cause, hmem, ht⟩ => ⟨cause, hsub hmem, ht⟩

/-- Settles O45: from the frame of the flags. -/
theorem flagsWrittenByCmpOnly : Obligations.FlagsWrittenByCmpOnly := by
  intro i s t hi h
  refine exec_flags h fun hm => ?_
  cases i <;> cases hm
  exact hi _ _ rfl

/-- Settles O49: from the frame of memory. -/
theorem memoryWrittenByPushAndCallOnly : Obligations.MemoryWrittenByPushAndCallOnly := by
  intro i s t h hne
  cases i
  case push a => exact .inl ⟨a, rfl⟩
  case call a => exact .inr ⟨a, rfl⟩
  all_goals exact absurd (exec_mem h (by simp [Instr.mnemonic]) (by simp [Instr.mnemonic])) hne

/-- An instruction whose mnemonic is in a list has none that is not. -/
theorem mnemonic_ne {ms : List Mnemonic} {m : Mnemonic} (hm : i.mnemonic ∈ ms) (hn : m ∉ ms := by decide) : i.mnemonic ≠ m :=
  ne_of_mem_of_not_mem hm hn

/-- Settles O56: the only register each of the seven may write is `x[a]`. -/
theorem frameOfDestinationRegisterInstructions : Obligations.FrameOfDestinationRegisterInstructions := by
  intro s t a b i hi h
  have hm : i.mnemonic ∈ [Mnemonic.ldi, .add, .mul, .and, .or, .xor, .mod] := List.mem_map_of_mem (f := Instr.mnemonic) hi
  have hreg : ∀ q, mayWrite i s q → q.val = a.toNat := by
    intro q hw
    simp only [List.mem_cons, List.not_mem_nil, or_false] at hi
    rcases hi with rfl | rfl | rfl | rfl | rfl | rfl | rfl
    · exact hw
    all_goals
      obtain ⟨_, _, _, hform, ra, ha, hw⟩ := hw
      cases hform
      exact (congrArg Fin.val hw).trans ha
  have hcauses : causesOf i.mnemonic ⊆ [.addressOutOfRange, .invalidRegisterIndex, .divideByZero] := by
    unfold causesOf
    split <;> simp
  exact ⟨fun q hq => exec_getReg h fun hw => hq (hreg q hw), exec_flags h (mnemonic_ne hm),
    exec_out h (mnemonic_ne hm),
    exec_memoryAndInputs h (mnemonic_ne hm) (mnemonic_ne hm),
    keepsRunAndErr_mono hcauses (exec_runAndErr h (mnemonic_ne hm))⟩

/-- Settles O57: the only register NOT may write is the one `x[a]` points to, and none where `a` is no register. -/
theorem frameOfNot : Obligations.FrameOfNot := by
  intro s t a b h
  have hreg : ∀ q, mayWrite (.not a b) s q → ∃ ra : Reg, ra.val = a.toNat ∧ q.val = (s.getReg ra).toNat := by
    rintro q ⟨_, _, _, hform, ra, ha, hw⟩
    cases hform
    exact ⟨ra, ha, hw⟩
  have hpointer : ∀ ra : Reg, a.toNat = ra.val → ∀ q : Reg, q.val ≠ (s.getReg ra).toNat → t.getReg q = s.getReg q := by
    refine fun ra ha q hq => exec_getReg h fun hw => ?_
    obtain ⟨ra', ha', hw⟩ := hreg q hw
    obtain rfl : ra' = ra := Fin.ext (ha'.trans ha)
    exact hq hw
  have hnone : 7 < a.toNat → t.regs = s.regs := by
    refine fun ha => regs_ext fun q => exec_getReg h fun hw => ?_
    obtain ⟨ra, hra, -⟩ := hreg q hw
    exact absurd ra.isLt (by omega)
  exact ⟨hpointer, hnone, exec_flags h (by simp [Instr.mnemonic]), exec_out h (by simp [Instr.mnemonic]),
    exec_memoryAndInputs h (by simp [Instr.mnemonic]) (by simp [Instr.mnemonic]),
    exec_runAndErr h (by simp [Instr.mnemonic])⟩

/-- HLT needs no address above `pc`, so it always has its effect (R102). -/
theorem exec_hlt (s : State) : exec .hlt s = .next { s with run := .halted } :=
  exec_of_effect (decide_eq_false (Nat.not_le.mpr s.pc.isLt)) .hlt

/-- Settles O58: none of the eight writes a register or memory; HLT always has its effect. -/
theorem frameOfRegisterFreeInstructions : Obligations.FrameOfRegisterFreeInstructions := by
  intro s t a b i hi h
  have hm : i.mnemonic ∈ [Mnemonic.prn, .hlt, .shl, .shr, .cmp, .jmp, .jeq, .jne] :=
    List.mem_map_of_mem (f := Instr.mnemonic) hi
  simp only [List.mem_cons, List.not_mem_nil, or_false] at hi
  have hreg : ∀ q, ¬ mayWrite i s q := by
    rintro q hw
    rcases hi with rfl | rfl | rfl | rfl | rfl | rfl | rfl | rfl
    all_goals
      obtain ⟨_, _, _, hform, _, _, hw⟩ := hw
      cases hform
    all_goals exact hw
  have hflags : i ≠ .cmp a b → t.flags = s.flags := by
    refine fun hne => exec_flags h fun hcmp => hne ?_
    rcases hi with rfl | rfl | rfl | rfl | rfl | rfl | rfl | rfl <;> cases hcmp
    rfl
  have hout : i ≠ .prn a → t.out = s.out := by
    refine fun hne => exec_out h fun hprn => hne ?_
    rcases hi with rfl | rfl | rfl | rfl | rfl | rfl | rfl | rfl <;> cases hprn
    rfl
  refine ⟨regs_ext fun q => exec_getReg h (hreg q), hflags, hout,
    exec_memoryAndInputs h (mnemonic_ne hm) (mnemonic_ne hm), ?_⟩
  by_cases hhlt : i.mnemonic = .hlt
  · obtain rfl : i = .hlt := by cases i <;> cases hhlt; rfl
    rw [exec_hlt] at h
    cases h
    exact .inl ⟨rfl, rfl, rfl⟩
  · have hmod : causesOf i.mnemonic = [.addressOutOfRange, .invalidRegisterIndex] :=
      if_neg (mnemonic_ne hm)
    exact .inr ⟨fun e => hhlt (by rw [e]; rfl), hmod ▸ exec_runAndErr h hhlt⟩

/-- Settles O59: the only register PUSH and CALL write is `x[7]`, the only cell the one at the push address. -/
theorem frameOfStackStores : Obligations.FrameOfStackStores := by
  intro s t a i hi h
  have hm : i.mnemonic ∈ [Mnemonic.push, .call] := List.mem_map_of_mem (f := Instr.mnemonic) hi
  have hreg : ∀ q, mayWrite i s q → q = spIndex := by
    intro q hw
    simp only [List.mem_cons, List.not_mem_nil, or_false] at hi
    rcases hi with rfl | rfl <;> exact hw
  have hmod : causesOf i.mnemonic = [.addressOutOfRange, .invalidRegisterIndex] :=
    if_neg (mnemonic_ne hm)
  refine ⟨fun q hq => exec_getReg h fun hw => hq (hreg q hw), exec_flags h (mnemonic_ne hm),
    exec_out h (mnemonic_ne hm), ?_, exec_resetIn h, exec_stepEn h,
    hmod ▸ exec_runAndErr h (mnemonic_ne hm)⟩
  rintro stored rfl addr ha
  exact exec_memRead h ha

/-- Settles O60: POP writes `x[a]` and `x[7]`, RET `x[7]` alone, neither memory. -/
theorem frameOfStackLoads : Obligations.FrameOfStackLoads := by
  intro s t a i hi h
  have hm : i.mnemonic ∈ [Mnemonic.pop, .ret] := List.mem_map_of_mem (f := Instr.mnemonic) hi
  have hreg : ∀ q, q ≠ 7 → (q.val ≠ a.toNat ∨ i = .ret) → ¬ mayWrite i s q := by
    intro q h7 hq hw
    simp only [List.mem_cons, List.not_mem_nil, or_false] at hi
    rcases hi with rfl | rfl
    · exact hw.elim (hq.resolve_right (by simp)) h7
    · exact h7 hw
  have hmod : causesOf i.mnemonic = [.addressOutOfRange, .invalidRegisterIndex] :=
    if_neg (mnemonic_ne hm)
  exact ⟨fun q h7 hq => exec_getReg h (hreg q h7 hq), exec_flags h (mnemonic_ne hm),
    exec_out h (mnemonic_ne hm),
    exec_memoryAndInputs h (mnemonic_ne hm) (mnemonic_ne hm),
    hmod ▸ exec_runAndErr h (mnemonic_ne hm)⟩

end Sys2Proof.Machine
end

section
/-! Proofs about the fatal conditions of 60_exceptions.md: where each instruction raises which. -/

namespace Sys2Proof.Machine

/-- The address check passes where the instruction's reach stays within memory (R73). -/
theorem addressFault_eq_false {m : Mnemonic} {e : Bool} {pc : Byte} (h : pc.toNat + reach m e < 256) :
    addressFault m e pc = false :=
  decide_eq_false (Nat.not_le.mpr h)

/-- The reach of an ALU instruction: its two operand bytes and its successor (R73). -/
theorem reach_of_aluForm {i : Instr} {op : AluOp} {a b : Byte} (h : aluForm i = some (op, a, b)) (e : Bool) :
    reach i.mnemonic e = 3 := by
  cases i <;> cases h <;> rfl

theorem addressFault_of_aluForm {i : Instr} {op : AluOp} {a b : Byte} {s : State} (h : aluForm i = some (op, a, b))
    (hpc : s.pc.toNat ≤ 252) : addressFault i.mnemonic s.flags.e s.pc = false :=
  addressFault_eq_false (by rw [reach_of_aluForm h]; omega)

/-- The table of R163 is the address check of R73. -/
theorem needsAddressAbove255_iff (i : Instr) (e : Bool) (pc : Byte) :
    needsAddressAbove255 i e pc.toNat ↔ addressFault i.mnemonic e pc = true := by
  have hpc : pc.toNat < 256 := pc.isLt
  rw [addressFault_iff]
  cases i
  case hlt | ret => exact iff_of_false id (Nat.not_le.mpr hpc)
  case jeq | jne =>
    cases e
    all_goals
      simp only [needsAddressAbove255, Instr.mnemonic, reach, if_true, Bool.false_eq_true, if_false]
      omega
  all_goals simp only [needsAddressAbove255, Instr.mnemonic, reach]; omega

/-- NOT's pointer above 7 is one of the two ways to a bad index (R164). -/
theorem badIndex_iff (i : Instr) (s : State) : BadIndex s i ↔ i.wellFormed = false ∨ notPointsAbove7 i s := by
  constructor
  · rintro (hw | ⟨ha, h8⟩)
    · exact .inl hw
    · exact .inr ⟨_, _, _, rfl, ha.symm, h8⟩
  · rintro (hw | ⟨a, b, ra, rfl, ha, h8⟩)
    · exact .operand hw
    · exact .pointer ha.symm h8

/-- Settles O37: the table is the address check, which comes first, and no other check has its cause. -/
theorem addressOutOfRangeExactlyByTheTable : Obligations.AddressOutOfRangeExactlyByTheTable := by
  intro i s _ herr
  refine ⟨fun hn => exec_addressFault ((needsAddressAbove255_iff ..).mp hn), fun t h ht => ?_⟩
  cases exec_next h with
  | address hc => exact (needsAddressAbove255_iff ..).mpr hc
  | index _ _ h' | divide _ _ _ _ _ h' => rw [h'] at ht; cases ht
  | effect _ _ he => rw [he.err_eq, herr] at ht; cases ht

/-- Settles O38: past the address check a bad index is raised, and no other check has its cause. -/
theorem invalidRegisterIndexExactlyByTheTable : Obligations.InvalidRegisterIndexExactlyByTheTable := by
  intro i s _ herr
  constructor
  · intro hn hbad
    have hc : addressFault i.mnemonic s.flags.e s.pc = false :=
      Bool.eq_false_iff.mpr (mt (needsAddressAbove255_iff ..).mpr hn)
    exact exec_bad_index hc ((badIndex_iff i s).mpr hbad)
  · intro t h ht
    cases exec_next h with
    | index _ hbad => exact (badIndex_iff i s).mp hbad
    | address _ h' | divide _ _ _ _ _ h' => rw [h'] at ht; cases ht
    | effect _ _ he => rw [he.err_eq, herr] at ht; cases ht

/-- Settles O39: MOD past its checks raises it on a zero divisor, and no other check has its cause. -/
theorem divideByZeroExactlyByMod : Obligations.DivideByZeroExactlyByMod := by
  constructor
  · intro s a b ra rb _ hpc ha hb h0
    have hc : addressFault .mod s.flags.e s.pc = false := addressFault_of_aluForm (i := .mod a b) rfl hpc
    exact exec_divide hc ha.symm hb.symm (by rw [h0]; rfl)
  · intro i s t herr h ht
    cases exec_next h with
    | divide _ _ hi hb h0 => exact ⟨_, _, _, hi, hb.symm, BitVec.eq_of_toNat_eq h0⟩
    | address _ h' | index _ _ h' => rw [h'] at ht; cases ht
    | effect _ _ he => rw [he.err_eq, herr] at ht; cases ht

end Sys2Proof.Machine
end

section
/-! Proofs about alu_core and the ALU instructions of 42_alu.md: which operation a select code names, what each operation answers, and
the whole next state of each instruction. -/

namespace Sys2Proof.Machine

@[simp] theorem nextPc_two (pc : Byte) : nextPc (.seq 2) pc = pc + 2 := by
  simp [nextPc, truncate, BitVec.ofInt_add]

@[simp] theorem nextPc_three (pc : Byte) : nextPc (.seq 3) pc = pc + 3 := by
  simp [nextPc, truncate, BitVec.ofInt_add]

/-- A byte is written to a register as it is. -/
theorem writeReg_byte (x : Regs) (r : Reg) (v : Byte) : writeReg x r v.toNat = x.set r.val v r.isLt := by
  rw [writeReg, truncate_byte]

/-- An ALU instruction below address 253 on Ok: the answer committed, and the instruction after it (R81). -/
theorem exec_alu_commits {i : Instr} {op : AluOp} {a b : Byte} {ra rb : Reg} {x : Regs} {fl : Flags} {s : State}
    (hi : aluForm i = some (op, a, b)) (hpc : s.pc.toNat ≤ 252) (ha : a.toNat = ra.val) (hb : b.toNat = rb.val)
    (hx : aluApply op ra rb s.regs s.flags = .ok x fl) :
    exec i s = .next { s with regs := x, flags := fl, pc := s.pc + 3 } := by
  rw [exec_alu_ok hi (addressFault_of_aluForm hi hpc) ha.symm hb.symm hx, ← nextPc_three]
  rfl

/-- An ALU instruction below address 253 on Err: the cause is raised (R81). -/
theorem exec_alu_raises {i : Instr} {op : AluOp} {a b : Byte} {ra rb : Reg} {cause : Cause} {s : State}
    (hi : aluForm i = some (op, a, b)) (hpc : s.pc.toNat ≤ 252) (ha : a.toNat = ra.val) (hb : b.toNat = rb.val)
    (hx : aluApply op ra rb s.regs s.flags = .err cause) : exec i s = .next { s with run := .halted, err := cause } :=
  exec_alu_err hi (addressFault_of_aluForm hi hpc) ha.symm hb.symm hx

/-- An ALU instruction whose operation writes the byte `v` to a register and keeps the flags. -/
theorem exec_alu_writes {i : Instr} {op : AluOp} {a b : Byte} {ra rb r : Reg} {n : Int} {s : State} (v : Byte)
    (hi : aluForm i = some (op, a, b)) (hpc : s.pc.toNat ≤ 252) (ha : a.toNat = ra.val) (hb : b.toNat = rb.val)
    (hx : aluApply op ra rb s.regs s.flags = .ok (writeReg s.regs r n) s.flags) (hv : truncate n = v) :
    exec i s = .next { s with regs := s.regs.set r.val v r.isLt, pc := s.pc + 3 } := by
  subst hv
  exact exec_alu_commits hi hpc ha hb hx

/-- A natural number is stored modulo 256 (R12). -/
theorem truncate_mod (n : Nat) : truncate (n : Int) = BitVec.ofNat 8 (n % 256) := by
  rw [truncate_natCast]
  exact BitVec.eq_of_toNat_eq (by simp)

/-- Settles O23: the sum is stored modulo 256. -/
theorem addWritesTheSum : Obligations.AddWritesTheSum :=
  fun _ _ _ _ _ _ hpc ha hb => exec_alu_writes _ rfl hpc ha hb rfl (truncate_mod _)

/-- Settles O24: the product is stored modulo 256. -/
theorem mulWritesTheProduct : Obligations.MulWritesTheProduct :=
  fun _ _ _ _ _ _ hpc ha hb => exec_alu_writes _ rfl hpc ha hb rfl (truncate_mod _)

/-- Settles O25: the byte stored is the bitwise one, whose bits are the library's. -/
theorem bitwiseInstructionsActOnEachBit : Obligations.BitwiseInstructionsActOnEachBit := by
  intro s a b ra rb _ hpc ha hb
  refine ⟨⟨s.getReg ra &&& s.getReg rb, fun k _ => BitVec.getLsbD_and, ?and⟩,
    ⟨s.getReg ra ||| s.getReg rb, fun k _ => BitVec.getLsbD_or, ?or⟩,
    ⟨s.getReg ra ^^^ s.getReg rb, fun k _ => BitVec.getLsbD_xor, ?xor⟩⟩
  all_goals exact exec_alu_writes _ rfl hpc ha hb rfl (truncate_byte _)

/-- The complement of a byte, `-v - 1` truncated (R116). -/
theorem truncate_complement (v : Byte) : truncate (-(v.toNat : Int) - 1) = BitVec.ofNat 8 (255 - v.toNat) := by
  have hv : v.toNat < 256 := v.isLt
  apply BitVec.eq_of_toNat_eq
  have h := truncate_toNat (-(v.toNat : Int) - 1)
  rw [BitVec.toNat_ofNat]
  omega

/-- NOT with a pointer that is a register complements that register (R116). -/
theorem aluNot_ok {a r : Reg} {x : Regs} (h : (readReg x a).toNat = r.val) (fl : Flags) :
    aluNot a x fl = .ok (writeReg x r (-((readReg x r).toNat : Int) - 1)) fl := by
  obtain ⟨n, hn⟩ := r
  obtain rfl : (readReg x a).toNat = n := h
  exact dif_pos hn

/-- Settles O26: the pointed register is complemented. -/
theorem notComplementsThePointedRegister : Obligations.NotComplementsThePointedRegister := by
  intro s a b ra r _ hpc ha hb hr
  have hlt : b.toNat < 8 := by omega
  exact exec_alu_writes (rb := ⟨b.toNat, hlt⟩) _ rfl hpc ha rfl (aluNot_ok hr s.flags) (truncate_complement _)

/-- Settles O27: the operations answer the registers and flags they were given. -/
theorem shiftsOnlyAdvance : Obligations.ShiftsOnlyAdvance := by
  intro s a b _ hpc ha hb
  have hra : a.toNat < 8 := by omega
  have hrb : b.toNat < 8 := by omega
  constructor
  all_goals exact exec_alu_commits (ra := ⟨a.toNat, hra⟩) (rb := ⟨b.toNat, hrb⟩) rfl hpc rfl rfl rfl

/-- Settles O28: the byte stored is the remainder, below the divisor and so below 256. -/
theorem modWritesTheRemainder : Obligations.ModWritesTheRemainder := by
  intro s a b ra rb _ hpc ha hb h0
  have hlt : (s.getReg ra).toNat % (s.getReg rb).toNat < (s.getReg rb).toNat := Nat.mod_lt _ (Nat.pos_of_ne_zero h0)
  refine ⟨s.getReg ra % s.getReg rb, by rwa [BitVec.toNat_umod], ⟨(s.getReg ra).toNat / (s.getReg rb).toNat, ?_⟩, ?_⟩
  · rw [BitVec.toNat_umod, Nat.div_add_mod']
  · refine exec_alu_writes _ rfl hpc ha hb (if_neg h0) ?_
    rw [← truncate_byte (s.getReg ra % s.getReg rb), BitVec.toNat_umod]
    rfl

/-- The comparison's three flags (R120). -/
theorem compareFlags_eq (p q : Byte) : compareFlags p q =
    { e := decide (p.toNat = q.toNat), g := decide (p.toNat > q.toNat), l := decide (p.toNat < q.toNat) } := by
  unfold compareFlags
  split
  · simp [*]
  · split <;> simp <;> omega

/-- Settles O29: the flags committed are the comparison's. -/
theorem cmpSetsExactlyOneFlag : Obligations.CmpSetsExactlyOneFlag := by
  intro s a b ra rb _ hpc ha hb
  rw [exec_alu_commits (fl := compareFlags (s.getReg ra) (s.getReg rb)) rfl hpc ha hb rfl, compareFlags_eq]

/-- Settles O41: each of the sixteen codes, looked up in the table. -/
theorem aluSelectCodes : Obligations.AluSelectCodes := by
  constructor
  · intro sel hsel a b x fl
    have hnone : ∀ sel ∈ [0b0001#4, 0b0011#4, 0b0101#4, 0b0110#4, 0b1110#4, 0b1111#4], aluOpOf sel = none := by decide
    exact aluCore_unsupported (hnone sel hsel) a b x fl
  · intro a b x fl
    exact ⟨aluCore_aluSelect .add .., aluCore_aluSelect .mul .., aluCore_aluSelect .mod .., aluCore_aluSelect .cmp ..,
      aluCore_aluSelect .and .., aluCore_aluSelect .not .., aluCore_aluSelect .or .., aluCore_aluSelect .xor ..,
      aluCore_aluSelect .shl .., aluCore_aluSelect .shr ..⟩

/-- The errors of the operations (R81): MOD's zero divisor and NOT's pointer above 7. -/
theorem aluApply_err_iff (op : AluOp) (a b : Reg) (x : Regs) (fl : Flags) (cause : Cause) :
    aluApply op a b x fl = .err cause ↔ (op = .mod ∧ (readReg x b).toNat = 0 ∧ cause = .divideByZero) ∨
      (op = .not ∧ 7 < (readReg x a).toNat ∧ cause = .invalidRegisterIndex) := by
  cases op
  case mod =>
    simp only [aluApply, aluMod]
    split <;> simp_all [eq_comm]
  case not =>
    simp only [aluApply, aluNot]
    split
    · simp; omega
    · simp_all [eq_comm]; omega
  all_goals simp [aluApply, aluAdd, aluMul, aluAnd, aluOr, aluXor, aluShl, aluShr, aluCmp]

/-- An operation other than NOT writes no register but `x[a]`. -/
theorem eq_of_aluWrites {op : AluOp} {a q : Reg} {x : Regs} (hop : op ≠ .not) (h : aluWrites op a x q) : q = a := by
  cases op
  case not => exact absurd rfl hop
  case shl | shr | cmp => exact h.elim
  all_goals exact h

/-- What an operation leaves unchanged on Ok (R81). -/
theorem aluApply_frame {op : AluOp} {a b : Reg} {x x' : Regs} {fl fl' : Flags} (h : aluApply op a b x fl = .ok x' fl') :
    (op = .shl ∨ op = .shr → x' = x ∧ fl' = fl) ∧ (op = .cmp → x' = x) ∧ (op ≠ .cmp → fl' = fl) ∧
      (op ≠ .not → ∀ q : Reg, q ≠ a → readReg x' q = readReg x q) ∧
      (op = .not → ∀ q : Reg, q.val ≠ (readReg x a).toNat → readReg x' q = readReg x q) := by
  refine ⟨?shift, ?cmp, aluApply_flags h, ?other, ?not⟩
  case shift => rintro (rfl | rfl) <;> cases h <;> exact ⟨rfl, rfl⟩
  case cmp => rintro rfl; cases h; rfl
  case other => exact fun hop q hq => aluApply_readReg h fun hw => hq (eq_of_aluWrites hop hw)
  case not => rintro rfl q hq; exact aluApply_readReg h hq

/-- A select code of no operation selects none (R82). -/
theorem aluOpOf_eq_none {sel : BitVec 4} (h : ∀ op, aluSelect op ≠ sel) : aluOpOf sel = none :=
  List.find?_eq_none.mpr fun op _ => by simpa using h op

/-- Settles O42: what each operation keeps and when it fails, and how the loop commits either answer. -/
theorem aluCoreContract : Obligations.AluCoreContract := by
  refine ⟨fun op a b x fl => ?core, fun sel a b x fl hsel => aluCore_unsupported (aluOpOf_eq_none hsel) a b x fl, ?loop⟩
  case core =>
    rw [aluCore_aluSelect]
    exact ⟨fun _ _ => aluApply_frame, aluApply_err_iff op a b x fl⟩
  case loop =>
    intro s a b ra rb _ hpc ha hb p hp
    have hform : aluForm p.1 = some (p.2, a, b) := by
      simp only [List.mem_cons, List.not_mem_nil, or_false] at hp
      rcases hp with rfl | rfl | rfl | rfl | rfl | rfl | rfl | rfl | rfl | rfl <;> rfl
    rw [aluCore_aluSelect]
    cases hx : aluApply p.2 ra rb s.regs s.flags with
    | ok x fl => exact exec_alu_commits hform hpc ha hb hx
    | err cause => exact exec_alu_raises hform hpc ha hb hx

/-- What ADD, MUL, AND, OR and XOR answer: `x[a]` written with a value that is the same for `b, a` in `x[b]` (R121). -/
theorem exec_alu_commute {i j : Instr} {op : AluOp} {a b : Byte} {ra rb : Reg} {s : State} (f : Byte → Byte → Int)
    (hf : ∀ p q, f p q = f q p) (hi : aluForm i = some (op, a, b)) (hj : aluForm j = some (op, b, a))
    (hop : ∀ r q, aluApply op r q s.regs s.flags = .ok (writeReg s.regs r (f (s.getReg r) (s.getReg q))) s.flags)
    (hpc : s.pc.toNat ≤ 252) (ha : a.toNat = ra.val) (hb : b.toNat = rb.val) :
    ∃ t u, exec i s = .next t ∧ exec j s = .next u ∧ t.getReg ra = u.getReg rb := by
  refine ⟨_, _, exec_alu_commits hi hpc ha hb (hop ra rb), exec_alu_commits hj hpc hb ha (hop rb ra), ?_⟩
  simp only [State.getReg, readReg_writeReg_self]
  rw [hf]

/-- Settles O55: the sum, the product and the bitwise operations are symmetric. -/
theorem aluOperationsCommute : Obligations.AluOperationsCommute := by
  intro s a b ra rb _ hpc ha hb p hp
  simp only [List.mem_cons, List.not_mem_nil, or_false] at hp
  rcases hp with rfl | rfl | rfl | rfl | rfl
  · exact exec_alu_commute (fun p q => p.toNat + q.toNat) (fun _ _ => add_comm ..) rfl rfl (fun _ _ => rfl) hpc ha hb
  · exact exec_alu_commute (fun p q => p.toNat * q.toNat) (fun _ _ => mul_comm ..) rfl rfl (fun _ _ => rfl) hpc ha hb
  · exact exec_alu_commute (fun p q => (p &&& q).toNat) (fun p q => by rw [BitVec.and_comm]) rfl rfl (fun _ _ => rfl) hpc ha hb
  · exact exec_alu_commute (fun p q => (p ||| q).toNat) (fun p q => by rw [BitVec.or_comm]) rfl rfl (fun _ _ => rfl) hpc ha hb
  · exact exec_alu_commute (fun p q => (p ^^^ q).toNat) (fun p q => by rw [BitVec.xor_comm]) rfl rfl (fun _ _ => rfl) hpc ha hb

end Sys2Proof.Machine
end

section
/-! Proofs about the load, print, halt, stack and control instructions (41_load_print_halt.md, 43_stack.md, 44_control_transfer.md): the
whole next state of each, and the round trips of the stack. -/

namespace Sys2Proof.Machine

variable {s : State} {a : Byte} {ra : Reg}

/-- The stack pointer's decrement as one register update, modulo 256 (R132). -/
theorem decSp_regs_eq_set (s : State) : s.decSp.regs = s.regs.set 7 (s.getReg 7 - 1) :=
  congrArg (fun v => s.regs.set 7 v) (truncate_pred s.sp)

/-- The register PUSH stores and CALL jumps to is read after the decrement (R133, R141). -/
theorem getReg_decSp_eq (s : State) (r : Reg) : s.decSp.getReg r = if r = 7 then s.getReg 7 - 1 else s.getReg r :=
  getReg_decSp s r

/-- A push as one update: the decremented stack pointer, and the byte in the cell it points to (R132). -/
theorem decSp_writeTop_eq (s : State) (v : Byte) : s.decSp.writeTop v =
    { s with regs := s.regs.set 7 (s.getReg 7 - 1), mem := Memory.store s.mem (s.getReg 7 - 1).toNat v } := by
  have hsp : s.decSp.sp = s.getReg 7 - 1 := sp_decSp s
  rw [← decSp_regs_eq_set, ← hsp]
  rfl

/-- The return address a CALL pushes (R141). -/
theorem returnAddress_eq (s : State) : returnAddress s = s.pc + 2 := nextPc_two s.pc

/-- A CALL pushes the return address (R141). -/
theorem pushReturn_eq (s : State) : pushReturn s = s.decSp.writeTop (s.pc + 2) := by
  rw [pushReturn, returnAddress_eq]

/-- An instruction whose reach stays within memory has its effect (R73). -/
theorem exec_completes {i : Instr} {s t : State} (hpc : s.pc.toNat + reach i.mnemonic s.flags.e < 256) (h : Effect s i t) :
    exec i s = .next t :=
  exec_of_effect (addressFault_eq_false hpc) h

/-- LDI below address 253 has its effect (R100). -/
theorem exec_ldi (v : Byte) (hpc : s.pc.toNat ≤ 252) (ha : a.toNat = ra.val) :
    exec (.ldi a v) s = .next ((s.setReg ra v).commitPc (.seq 3)) :=
  exec_completes (by simp only [Instr.mnemonic, reach]; omega) (.ldi ha.symm)

/-- PRN below address 254 has its effect (R101). -/
theorem exec_prn (hpc : s.pc.toNat ≤ 253) (ha : a.toNat = ra.val) :
    exec (.prn a) s = .next ((s.emit (s.getReg ra)).commitPc (.seq 2)) :=
  exec_completes (by simp only [Instr.mnemonic, reach]; omega) (.prn ha.symm)

/-- POP below address 254 has its effect (R131). -/
theorem exec_pop (hpc : s.pc.toNat ≤ 253) (ha : a.toNat = ra.val) :
    exec (.pop a) s = .next ((s.setReg ra s.stackTop).incSp.commitPc (.seq 2)) :=
  exec_completes (by simp only [Instr.mnemonic, reach]; omega) (.pop ha.symm)

/-- PUSH below address 254 has its effect (R132). -/
theorem exec_push (hpc : s.pc.toNat ≤ 253) (ha : a.toNat = ra.val) :
    exec (.push a) s = .next ((s.decSp.writeTop (s.decSp.getReg ra)).commitPc (.seq 2)) :=
  exec_completes (by simp only [Instr.mnemonic, reach]; omega) (.push ha.symm)

/-- CALL below address 254 has its effect (R141). -/
theorem exec_call (hpc : s.pc.toNat ≤ 253) (ha : a.toNat = ra.val) :
    exec (.call a) s = .next ((pushReturn s).commitPc (.reg ((pushReturn s).getReg ra))) :=
  exec_completes (by simp only [Instr.mnemonic, reach]; omega) (.call ha.symm)

/-- Settles O20: LDI's effect. -/
theorem ldiLoadsTheImmediate : Obligations.LdiLoadsTheImmediate := by
  intro s a v ra _ hpc ha
  rw [exec_ldi v hpc ha, ← writeReg_byte, ← nextPc_three]
  rfl

/-- Settles O21: PRN's effect. -/
theorem prnEmitsTheRegister : Obligations.PrnEmitsTheRegister := by
  intro s a ra _ hpc ha
  rw [exec_prn hpc ha, ← nextPc_two]
  rfl

/-- Settles O22: HLT always has its effect. -/
theorem hltOnlyHalts : Obligations.HltOnlyHalts := fun s _ => exec_hlt s

/-- The registers after POP: the byte loaded, then the increment, which sees it where it went to `x[7]` (R133). -/
theorem regs_pop (s : State) (r : Reg) : (s.setReg r s.stackTop).incSp.regs =
    (s.regs.set r.val (s.memRead (s.getReg 7)) r.isLt).set 7 ((if r = 7 then s.memRead (s.getReg 7) else s.getReg 7) + 1) := by
  rw [incSp_regs_eq_set, getReg_setReg, State.setReg_regs, writeReg_byte]
  simp only [eq_comm (b := r)]
  rfl

/-- Settles O30: POP's effect, the increment seeing the byte loaded only where it went to `x[7]`. -/
theorem popLoadsTheStackTop : Obligations.PopLoadsTheStackTop := by
  intro s a ra _ hpc ha
  have hexec : exec (.pop a) s = .next { s with regs := (s.setReg ra s.stackTop).incSp.regs, pc := s.pc + 2 } := by
    rw [exec_pop hpc ha, ← nextPc_two]
    rfl
  rw [hexec, regs_pop]
  constructor
  · intro h7
    rw [if_neg h7]
  · rintro rfl
    have hset : ∀ v w : Byte, (s.regs.set 7 v).set 7 w = s.regs.set 7 w := fun _ _ => Vector.set_set ..
    rw [if_pos rfl, ← hset (s.memRead (s.getReg 7))]
    rfl

/-- Settles O31: PUSH's effect. -/
theorem pushStoresBelowTheStackTop : Obligations.PushStoresBelowTheStackTop := by
  intro s a ra _ hpc ha
  rw [exec_push hpc ha, getReg_decSp_eq, decSp_writeTop_eq, ← nextPc_two]
  rfl

/-- Settles O32: CALL's effect; its target is read after the push, which writes no register but `x[7]`. -/
theorem callPushesTheReturnAddress : Obligations.CallPushesTheReturnAddress := by
  intro s a ra _ hpc ha
  rw [exec_call hpc ha, pushReturn_eq, getReg_writeTop, getReg_decSp_eq, decSp_writeTop_eq]
  rfl

/-- Settles O34: JMP's effect, below address 255. -/
theorem jmpJumpsAndRunsOn : Obligations.JmpJumpsAndRunsOn :=
  fun _ _ _ _ hpc ha => exec_completes (by simp only [Instr.mnemonic, reach]; omega) (.jmp ha.symm)

/-- Settles O35: the effects of JEQ and JNE, taken and not taken; a jump not taken needs its successor too. -/
theorem conditionalJumpsFollowTheEqualFlag : Obligations.ConditionalJumpsFollowTheEqualFlag := by
  intro s a ra _ ha
  have hseq : s.commitPc (.seq 2) = { s with pc := s.pc + 2 } := by
    rw [← nextPc_two]
    rfl
  refine ⟨fun he hpc => ?jeqTaken, fun he hpc => ?jeqNot, fun he hpc => ?jneTaken, fun he hpc => ?jneNot⟩
  case jeqTaken => exact exec_completes (by simp only [Instr.mnemonic, reach, he, if_true]; omega) (.jeqTaken ha.symm he)
  case jneTaken =>
    exact exec_completes (by simp only [Instr.mnemonic, reach, he, Bool.false_eq_true, if_false]; omega) (.jneTaken ha.symm he)
  case jeqNot =>
    rw [← hseq]
    exact exec_completes (by simp only [Instr.mnemonic, reach, he, Bool.false_eq_true, if_false]; omega) (.jeqNot ha.symm he)
  case jneNot =>
    rw [← hseq]
    exact exec_completes (by simp only [Instr.mnemonic, reach, he, if_true]; omega) (.jneNot ha.symm he)

/-- The stack pointer's increment undoes its decrement, modulo 256. -/
theorem byte_sub_one_add_one (v : Byte) : v - 1 + 1 = v := BitVec.sub_add_cancel v 1

/-- A sequential `pc` within memory (R76). -/
theorem nextPc_seq_toNat {pc : Byte} {len : Nat} (h : pc.toNat + len ≤ 255) : (nextPc (.seq len) pc).toNat = pc.toNat + len := by
  have hnat := truncate_toNat ((pc.toNat : Int) + len)
  simp only [nextPc]
  omega

/-- Reading a register after POP's write and increment (R131). -/
theorem getReg_setReg_incSp (s : State) (v : Byte) {r : Reg} (hr : r ≠ 7) (q : Reg) :
    (s.setReg r v).incSp.getReg q = if q = 7 then s.getReg 7 + 1 else if q = r then v else s.getReg q := by
  have hsp : (s.setReg r v).sp = s.getReg 7 := (getReg_setReg s r 7 v).trans (if_neg (Ne.symm hr))
  rw [getReg_incSp, hsp, getReg_setReg]
  rfl

/-- Settles O51: POP reads the cell PUSH has just written, and the stack pointer is back where it was. -/
theorem pushThenPopRoundTrips : Obligations.PushThenPopRoundTrips := by
  intro s a b ra rb _ hpc ha hb ha7 hb7
  have hpush := exec_push (s := s) (by omega) ha
  rw [getReg_decSp_eq, if_neg ha7] at hpush
  set t := (s.decSp.writeTop (s.getReg ra)).commitPc (.seq 2)
  have hsp : t.getReg 7 = s.getReg 7 - 1 := sp_decSp s
  have htop : t.stackTop = s.getReg ra := (memRead_writeTop ..).trans (if_pos rfl)
  have htpc : t.pc.toNat = s.pc.toNat + 2 := nextPc_seq_toNat (pc := s.pc) (by omega)
  refine ⟨t, _, hpush, exec_pop (by omega) hb, ?sp, ?reg, ?mem⟩
  case sp =>
    calc _ = t.getReg 7 + 1 := (getReg_setReg_incSp t _ hb7 7).trans (if_pos rfl)
      _ = s.getReg 7 := by rw [hsp, byte_sub_one_add_one]
  case reg =>
    calc _ = t.stackTop := (getReg_setReg_incSp t _ hb7 rb).trans (by rw [if_neg hb7, if_pos rfl])
      _ = s.getReg ra := htop
  case mem => exact hsp ▸ htop

/-- Settles O52: RET reads the cell CALL has written, and the stack pointer is back where it was. -/
theorem callThenRetRoundTrips : Obligations.CallThenRetRoundTrips := by
  intro s a ra _ hpc ha
  refine ⟨_, exec_call hpc ha, fun u _ hsp htop => ⟨_, exec_ret u, ?pc, ?sp⟩⟩
  case pc =>
    rw [pushReturn_eq] at htop
    exact htop.trans ((memRead_writeTop ..).trans (if_pos rfl))
  case sp =>
    calc u.incSp.getReg 7 = u.getReg 7 + 1 := getReg_incSp u 7
      _ = s.getReg 7 - 1 + 1 := by rw [hsp]; exact congrArg (· + 1) (getReg_decSp s 7)
      _ = s.getReg 7 := byte_sub_one_add_one _

/-- Settles O53: the four selections. -/
theorem pcMuxSelects : Obligations.PcMuxSelects :=
  fun _ _ _ => ⟨rfl, rfl, rfl, nextPc_seq_toNat⟩

/-- Settles O54: the flag bytes and the cause codes one by one; the outputs are what they are defined as. -/
theorem statusAndCauseCodes : Obligations.StatusAndCauseCodes := by
  refine ⟨by decide, by decide, fun s => ⟨?_, rfl, rfl⟩⟩
  exact decide_eq_true_iff

end Sys2Proof.Machine
end

section
/-! Proofs about the fetch of 40_execution_loop_and_blocks.md: it reads what the decoder reads, so a step runs the decoded instruction. -/

namespace Sys2Proof.Machine

variable {c : Config} {s t : State} {i : Instr}

theorem byte_of_address (s : State) (k : Nat) : s.memRead (BitVec.ofNat 8 (s.pc.toNat + k)) = operandByte s k := by
  rw [operandByte, ← truncate_natCast, Nat.cast_add]

/-- The bytes from `pc` are the opcode and the operand bytes above it, up to address 255. -/
theorem bytesFromPc_eq (s : State) : s.bytesFromPc = (List.range (256 - s.pc.toNat)).map (operandByte s) :=
  List.map_congr_left fun k _ => byte_of_address s k

/-- The byte at `pc` is the opcode byte. -/
theorem operandByte_zero (s : State) : operandByte s 0 = s.memRead s.pc := by
  rw [operandByte, Nat.cast_zero, add_zero, truncate_byte]

/-- There is always a byte at `pc`. -/
theorem bytesFromPc_cons (s : State) : ∃ rest, s.bytesFromPc = s.memRead s.pc :: rest := by
  have hpc : s.pc.toNat < 256 := s.pc.isLt
  obtain ⟨n, hn⟩ : ∃ n, 256 - s.pc.toNat = n + 1 := ⟨255 - s.pc.toNat, by omega⟩
  rw [bytesFromPc_eq, hn, List.range_succ_eq_map, List.map_cons, operandByte_zero]
  exact ⟨_, rfl⟩

/-- The operands a fetch puts together are the bytes after `pc` (R70 step 4). -/
theorem fetchOperands_operands (m : Mnemonic) (s : State) :
    s.memRead s.pc :: (fetchOperands m s).operands = (List.range m.len).map (operandByte s) := by
  rw [← operandByte_zero, fetchOperands, Mnemonic.len]
  cases hf : m.format <;> simp only [operands_assemble, hf] <;> rfl

@[simp] theorem fetchOperands_mnemonic (m : Mnemonic) (s : State) : (fetchOperands m s).mnemonic = m := by
  unfold fetchOperands
  split <;> exact mnemonic_assemble ..

/-- Where the operand bytes lie within memory, the bytes from `pc` decode to the instruction a fetch puts together. -/
theorem decode_bytesFromPc {m : Mnemonic} (hd : decodeOpcode c (s.memRead s.pc) = some m) (hlen : s.pc.toNat + m.len ≤ 256) :
    ∃ rest, decode c s.bytesFromPc = .ok (fetchOperands m s) rest := by
  have hbytes : s.bytesFromPc = s.memRead s.pc :: ((fetchOperands m s).operands ++ s.bytesFromPc.drop m.len) := by
    have htake : s.bytesFromPc.take m.len = (List.range m.len).map (operandByte s) := by
      rw [bytesFromPc_eq, ← List.map_take, List.take_range, Nat.min_eq_left (by omega)]
    rw [← List.cons_append, fetchOperands_operands, ← htake, List.take_append_drop]
  rw [hbytes]
  exact ⟨_, decode_operands _ (by rw [fetchOperands_mnemonic]; exact hd) _⟩

/-- The operand bytes are within an instruction's reach (R73). -/
theorem len_le_reach (m : Mnemonic) (e : Bool) : m.len ≤ reach m e + 1 := by
  cases m <;> cases e <;> decide

/-- The address check covers the operand bytes (R73). -/
theorem len_of_no_addressFault {m : Mnemonic} (h : addressFault m s.flags.e s.pc = false) : s.pc.toNat + m.len ≤ 256 := by
  have hreach : ¬ 256 ≤ s.pc.toNat + reach m s.flags.e := fun hge => by simp [(addressFault_iff ..).mpr hge] at h
  have := len_le_reach m s.flags.e
  omega

/-- What a fetch of an instruction has seen: a known opcode and no address fault (R70). -/
theorem fetch_instr (h : fetch c s = .instr i) : decodeOpcode c (s.memRead s.pc) = some i.mnemonic ∧
    addressFault i.mnemonic s.flags.e s.pc = false ∧ i = fetchOperands i.mnemonic s := by
  unfold fetch at h
  split at h
  · cases h
  · rename_i m hd
    split at h <;> cases h
    rename_i hc
    rw [fetchOperands_mnemonic]
    exact ⟨hd, Bool.eq_false_iff.mpr hc, rfl⟩

/-- The fetch reads no byte the decoder does not read: what it fetched is what the bytes from `pc` decode to. -/
theorem decode_of_fetch (h : fetch c s = .instr i) : ∃ rest, decode c s.bytesFromPc = .ok i rest := by
  obtain ⟨hd, hc, hi⟩ := fetch_instr h
  rw [hi]
  exact decode_bytesFromPc hd (len_of_no_addressFault hc)

/-- A step on a known opcode: the address fault, or the instruction fetched (R70). -/
theorem stepRunning_known {m : Mnemonic} (hd : decodeOpcode c (s.memRead s.pc) = some m) :
    stepRunning c s = exec (fetchOperands m s) s := by
  cases hc : addressFault m s.flags.e s.pc with
  | true =>
    rw [exec_addressFault (by rwa [fetchOperands_mnemonic])]
    simp only [stepRunning, fetch, hd, hc, if_true]
  | false => simp only [stepRunning, fetch, hd, hc, Bool.false_eq_true, if_false]

/-- Bytes from `pc` that decode have a known opcode in front, and the fetch puts together the same instruction. -/
theorem fetch_of_decode {rest : List Byte} (h : decode c s.bytesFromPc = .ok i rest) :
    decodeOpcode c (s.memRead s.pc) = some i.mnemonic ∧ fetchOperands i.mnemonic s = i := by
  obtain ⟨ir, hd, hbytes⟩ := decode_ok h
  obtain ⟨bytes, hcons⟩ := bytesFromPc_cons s
  have hlen : s.pc.toNat + i.mnemonic.len ≤ 256 := by
    have hcount : s.bytesFromPc.length = 256 - s.pc.toNat := by rw [bytesFromPc_eq, List.length_map, List.length_range]
    rw [hbytes, List.length_cons, List.length_append] at hcount
    have := operands_length i
    omega
  obtain rfl : s.memRead s.pc = ir := by
    rw [hcons] at hbytes
    exact List.head_eq_of_cons_eq hbytes
  obtain ⟨rest', hok⟩ := decode_bytesFromPc hd hlen
  obtain ⟨hi, -⟩ := DecodeResult.ok.inj (hok.symm.trans h)
  exact ⟨hd, hi⟩

/-- A step runs the instruction the bytes from `pc` decode to (R70). -/
theorem stepWith_of_decode {rest : List Byte} (hs : s.Ready) (h : decode c s.bytesFromPc = .ok i rest) :
    stepWith c s = exec i s := by
  obtain ⟨hd, hi⟩ := fetch_of_decode h
  rw [stepWith_ready hs, stepRunning_known hd, hi]

/-- Settles O7: for every parameter value, and so for those of `step`. -/
theorem stepRunsTheDecodedInstruction : Obligations.StepRunsTheDecodedInstruction :=
  ⟨fun _ _ _ _ hs h => stepWith_of_decode hs h, fun _ _ _ hs h => stepWith_of_decode hs h⟩

/-- The bytes from `pc` decode to an unknown opcode only where the byte at `pc` is one. -/
theorem decodeOpcode_of_unknown {ir : Byte} (h : decode c s.bytesFromPc = .unknownOpcode ir) :
    decodeOpcode c (s.memRead s.pc) = none := by
  obtain ⟨bytes, hcons⟩ := bytesFromPc_cons s
  cases hd : decodeOpcode c (s.memRead s.pc) with
  | none => rfl
  | some m =>
    rw [hcons] at h
    rcases decode_known hd bytes with ht | ⟨_, _, hok, -⟩
    · rw [ht] at h; cases h
    · rw [hok] at h; cases h

/-- The bytes from `pc` are truncated only where the opcode is known and the operand bytes lie above 255. -/
theorem addressFault_of_truncated {m : Mnemonic} (h : decode c s.bytesFromPc = .truncated m) :
    decodeOpcode c (s.memRead s.pc) = some m ∧ addressFault m s.flags.e s.pc = true := by
  obtain ⟨bytes, hcons⟩ := bytesFromPc_cons s
  have hd : decodeOpcode c (s.memRead s.pc) = some m := by
    cases hd : decodeOpcode c (s.memRead s.pc) with
    | none => rw [hcons, decode_unknown hd] at h; cases h
    | some m' =>
      rw [hcons] at h
      rcases decode_known hd bytes with ht | ⟨_, _, hok, -⟩
      · rw [ht] at h; cases h; rfl
      · rw [hok] at h; cases h
  refine ⟨hd, Bool.not_eq_false _ ▸ fun hc => ?_⟩
  obtain ⟨rest, hok⟩ := decode_bytesFromPc hd (len_of_no_addressFault hc)
  rw [hok] at h
  cases h

/-- Settles O8: the unknown opcode is the fatal policy's, and operand bytes above 255 fail the address check. -/
theorem undecodableBytesEndTheRun : Obligations.UndecodableBytesEndTheRun := by
  refine ⟨fun s ir hs h => ?unknown, fun s m hs h => ?truncated⟩
  case unknown =>
    have hf : fetch defaultConfig s = .unknown := by rw [fetch, decodeOpcode_of_unknown h]
    rw [step, stepWith_ready hs, stepRunning_of_fetch_unknown hf]
    rfl
  case truncated =>
    obtain ⟨hd, hc⟩ := addressFault_of_truncated h
    rw [step, stepWith_ready hs, stepRunning_known hd, exec_addressFault (by rwa [fetchOperands_mnemonic])]
    rfl

end Sys2Proof.Machine
end

section
/-! Proofs about what one move of the block can do, and the invariant it keeps. -/

namespace Sys2Proof.Machine

variable {c : Config} {s t : State} {i : Instr}

/-- A step raises a fatal condition, stalls on an unknown opcode, or has the effect of the instruction fetched. -/
inductive Stepped (c : Config) (s t : State) : Prop
  | fatal {cause : Cause} (ht : t = raiseFatal cause s) (hn : cause ≠ .none) (hu : cause ≠ .unsupportedAluOp)
  | stall (ht : t = s)
  | effect {i : Instr} (hf : fetch c s = .instr i) (he : Effect s i t)

/-- Everything a step can do (R70). -/
theorem stepRunning_stepped (h : stepRunning c s = .next t) : Stepped c s t := by
  rcases stepRunning_next h with ⟨-, -, ht⟩ | ⟨-, -, ht⟩ | ⟨-, ht⟩ | ⟨i, hf, h⟩
  · exact .fatal ht nofun nofun
  · exact .stall ht
  · exact .fatal ht nofun nofun
  · cases exec_next h with
    | address _ ht | index _ _ ht | divide _ _ _ _ _ ht => exact .fatal ht nofun nofun
    | effect _ _ he => exact .effect hf he

/-- Everything one move of the block can do when it answers a next state. -/
theorem stepWith_cases (h : stepWith c s = .next t) : (s.resetIn = true ∧ t = s.blockReset) ∨
    (s.resetIn = false ∧ s.run = .running ∧ Stepped c s t) := by
  rcases stepWith_next h with hr | ⟨hr, hrun, -, ht⟩ | ⟨⟨hr, hrun, -⟩, h⟩
  · exact .inl hr
  · exact .inr ⟨hr, hrun, .stall ht⟩
  · exact .inr ⟨hr, hrun, stepRunning_stepped h⟩

/-- Settles O15: memory is empty, the flags are clear and `err` is None. -/
theorem resetMeetsTheInvariant : Obligations.ResetMeetsTheInvariant :=
  ⟨wf_reset, by decide, fun h => absurd rfl h⟩

/-- An effect keeps memory in canonical form: what it stores lies within the 256 cells. -/
theorem Effect.wf_mem (h : Effect s i t) (hw : Memory.wf s.mem) : Memory.wf t.mem := by
  cases h with
  | push | call => exact wf_writeTop (s := s.decSp) _ hw
  | _ => exact hw

/-- An effect leaves at most one flag set (R17). -/
theorem Effect.flags_exclusive (h : Effect s i t) (hx : s.flags.exclusive) : t.flags.exclusive := by
  cases h with
  | @alu _ op _ _ _ _ _ fl _ _ _ hok =>
    by_cases hcmp : op = .cmp
    · subst hcmp
      cases hok
      exact compareFlags_exclusive ..
    · have hfl : fl = s.flags := aluApply_flags hok hcmp
      exact hfl ▸ hx
  | _ => exact hx

/-- Settles O16: a reset gives the values of the reset state, a fatal condition a HALTED machine, and an effect keeps each part. -/
theorem everyStepKeepsTheInvariant : Obligations.EveryStepKeepsTheInvariant := by
  rintro c s t ⟨hw, hx, herr⟩ h
  rcases stepWith_cases h with ⟨-, rfl⟩ | ⟨-, hrun, hs⟩
  · obtain ⟨-, hreset⟩ := resetMeetsTheInvariant
    exact ⟨hw, hreset⟩
  · cases hs with
    | fatal ht => exact ht ▸ ⟨hw, hx, fun _ => rfl⟩
    | stall ht => exact ht ▸ ⟨hw, hx, herr⟩
    | effect _ he =>
      have hnone : s.err = .none := by
        by_contra hne
        exact absurd (hrun.symm.trans (herr hne)) nofun
      exact ⟨he.wf_mem hw, he.flags_exclusive hx, fun hne => absurd (he.err_eq.trans hnone) hne⟩

end Sys2Proof.Machine
end

section
/-! Proofs about the beginning and the end of a run (70_reset_and_hazards.md): how HALTED is entered and left, what reset leaves, what
an image is loaded to. -/

namespace Sys2Proof.Machine

variable {c : Config} {s t : State} {i : Instr}

/-- Settles O40: no step raises the cause, and nothing else writes `err` but the reset, to None. -/
theorem unsupportedAluOpIsUnreachable : Obligations.UnsupportedAluOpIsUnreachable := by
  intro c s t hne h
  rcases stepWith_cases h with ⟨-, rfl⟩ | ⟨-, -, hs⟩
  · exact nofun
  · cases hs with
    | fatal ht _ hu => exact ht ▸ hu
    | stall ht => exact ht ▸ hne
    | effect _ he => exact he.err_eq ▸ hne

/-- A move of a block that takes a step. -/
theorem stepped_of_ready (hs : s.Ready) (h : stepWith c s = .next t) : Stepped c s t :=
  stepRunning_stepped ((stepWith_ready hs).symm.trans h)

/-- Settles O43: a stalled step and an effect leave no cause in `err`. -/
theorem fatalConditionsArePrecise : Obligations.FatalConditionsArePrecise := by
  intro c s t hready hnone h hne
  cases stepped_of_ready hready h with
  | fatal ht => subst ht; rfl
  | stall ht => exact absurd (ht ▸ hnone) hne
  | effect _ he => exact absurd (he.err_eq.trans hnone) hne

/-- Settles O44: a stalled step and every effect but HLT's keep a RUNNING machine so. -/
theorem haltedEnteredByHltOrFatalOnly : Obligations.HaltedEnteredByHltOrFatalOnly := by
  intro c s t hready hnone h hend
  have hend : t.run = .halted := hend
  have hstep := stepped_of_ready hready h
  obtain ⟨-, hrun, -⟩ := hready
  have hrun : s.run ≠ t.run := by rw [hrun, hend]; exact nofun
  cases hstep with
  | fatal ht hn => exact .inr ⟨hend, ht ▸ hn⟩
  | stall ht => exact absurd (congrArg State.run ht.symm) hrun
  | @effect i hf he =>
    by_cases hi : i.mnemonic = .hlt
    · obtain rfl : i = .hlt := by cases i <;> cases hi; rfl
      cases he with
      | hlt => exact .inl ⟨⟨rfl, hnone⟩, rfl, decode_of_fetch hf⟩
      | alu hi => cases hi
    · exact absurd (he.run_eq hi).symm hrun

/-- A HALTED machine whose `reset` input is 0 has no step (R70, R77). -/
theorem stepWith_halted (c : Config) (hr : s.resetIn = false) (h : s.run = .halted) : stepWith c s = .fault .halted := by
  simp [stepWith, hr, h]

/-- Settles O10: there is no step, so the run stays; and a next state is the reset's. -/
theorem haltedUntilReset : Obligations.HaltedUntilReset := by
  intro c s hend
  have hend : s.run = .halted := hend
  refine ⟨fun hr => stepWith_halted c hr hend, fun n => ?run, fun t h => ?leave⟩
  case run =>
    rw [runWith_halted c n hend, runResult, hend]
    exact ⟨rfl, rfl⟩
  case leave =>
    rcases stepWith_cases h with ⟨hr, rfl⟩ | ⟨-, hrun, -⟩
    · exact ⟨hr, rfl, rfl⟩
    · exact absurd (hrun.symm.trans hend) nofun

/-- Settles O11: the third of the move's cases. -/
theorem stepEnableLowHoldsTheState : Obligations.StepEnableLowHoldsTheState := by
  intro c s hr hrun hen
  simp [stepWith, hr, hrun, hen]

/-- Settles O13: the move is the block's reset, whose registers are those of the reset state. -/
theorem resetInputRestoresTheBlock : Obligations.ResetInputRestoresTheBlock :=
  fun _ s hr => ⟨s.blockReset, if_pos hr, readReg_reset, rfl, rfl, rfl, rfl, rfl, rfl, rfl, rfl⟩

/-- Settles O14: the registers' reset values, and the other fields as they are defined. -/
theorem resetStateValues : Obligations.ResetStateValues :=
  ⟨readReg_reset, rfl, rfl, rfl, rfl, rfl, fun _ => rfl, rfl, rfl, rfl⟩

/-- A byte of an image placed from address 0 over zeroed memory (R192). -/
theorem lookup_storeBytes_zeroed {image : List Byte} (h : image.length ≤ 256) (k : Nat) :
    Memory.lookup (storeBytes [] 0 image) k = image.getD k 0 := by
  have hlookup := lookup_storeBytes [] image k (a := 0) (by rw [Nat.zero_add]; exact h)
  rw [Nat.zero_add] at hlookup
  rw [hlookup, List.getD_eq_getElem?_getD]
  split
  · rename_i hk
    rw [List.getElem?_eq_getElem hk, Option.getD_some]
  · rename_i hk
    rw [List.getElem?_eq_none (Nat.not_lt.mp hk)]
    rfl

/-- Settles O17: the placed bytes read back, and placing them keeps the canonical form. -/
theorem imageLoadedFromAddressZero : Obligations.ImageLoadedFromAddressZero := by
  refine fun image => ⟨fun hlen => ?loaded, fun hlen => if_neg (Nat.not_le.mpr hlen)⟩
  case loaded =>
    obtain ⟨hw, hrest⟩ := resetMeetsTheInvariant
    exact ⟨_, if_pos hlen, fun a => lookup_storeBytes_zeroed hlen a.toNat, rfl, wf_storeBytes image 0 hw, hrest⟩

end Sys2Proof.Machine
end

section
/-! Proofs about stepping under step_en and running freely (40_execution_loop_and_blocks.md section 1). -/

namespace Sys2Proof.Machine

variable {c : Config} {s t : State}

/-- A step always answers a next state: every fatal condition is taken (R165). -/
theorem stepRunning_total (c : Config) (s : State) : ∃ t, stepRunning c s = .next t := by
  unfold stepRunning
  split
  · unfold unknownOpcodeStep
    split <;> exact ⟨_, rfl⟩
  · exact ⟨_, rfl⟩
  · exact execAlwaysAnswersANextState _ s

/-- No step writes the inputs (R85). -/
theorem Stepped.inputs_eq (h : Stepped c s t) : t.resetIn = s.resetIn ∧ t.stepEn = s.stepEn := by
  cases h with
  | fatal ht | stall ht => subst ht; exact ⟨rfl, rfl⟩
  | effect _ he => exact ⟨he.resetIn_eq, he.stepEn_eq⟩

/-- A move with `step_en` driven to 0 changes nothing else (R78). -/
theorem gatedMove_low (c : Config) (hr : s.resetIn = false) : gatedMove c false s = s.driveStepEn false := by
  cases hrun : s.run with
  | halted => exact gatedMove_halted c false hr hrun
  | running => exact gatedMove_next (stepEnableLowHoldsTheState c (s.driveStepEn false) hr hrun rfl)

/-- A move with `step_en` driven to 1 is one step of the free run, which leaves the inputs as they were driven (R77, R78). -/
theorem gatedMove_high (c : Config) (hr : s.resetIn = false) : (gatedMove c true s).resetIn = false ∧
    (gatedMove c true s).stepEn = true ∧ ∀ n, runWith c n (gatedMove c true s) = runWith c (n + 1) (s.driveStepEn true) := by
  cases hrun : s.run with
  | halted =>
    have hhalted : (s.driveStepEn true).run = .halted := hrun
    rw [gatedMove_halted c true hr hrun]
    exact ⟨hr, rfl, fun n => by rw [runWith_halted c n hhalted, runWith_halted c (n + 1) hhalted]⟩
  | running =>
    have hrunning : (s.driveStepEn true).run = .running := hrun
    obtain ⟨t, ht⟩ := stepRunning_total c (s.driveStepEn true)
    have hnext : stepWith c (s.driveStepEn true) = .next t :=
      (stepWith_ready (s := s.driveStepEn true) ⟨hr, hrunning, rfl⟩).trans ht
    obtain ⟨hreset, hen⟩ := (stepRunning_stepped ht).inputs_eq
    rw [gatedMove_next hnext]
    exact ⟨hreset.trans hr, hen, fun n => (runWith_succ n hrunning hnext).symm⟩

/-- Driving `step_en` to the level it has changes nothing. -/
theorem driveStepEn_of_eq {level : Bool} (h : s.stepEn = level) : s.driveStepEn level = s := by
  subst h
  rfl

/-- Stepping under any levels stands where the free run stands after as many steps as there were moves with `step_en` 1 (R78). -/
theorem gatedRun_eq_runWith (c : Config) (levels : List Bool) (hr : s.resetIn = false) :
    (gatedRun c levels s).driveStepEn true = runWith c (levels.count true) (s.driveStepEn true) := by
  induction levels generalizing s with
  | nil => rfl
  | cons level levels ih =>
    cases level with
    | false =>
      rw [gatedRun, gatedMove_low c hr, ih (s := s.driveStepEn false) hr, State.driveStepEn_driveStepEn,
        List.count_cons_of_ne (by decide)]
    | true =>
      obtain ⟨hreset, hen, hrun⟩ := gatedMove_high c hr
      rw [gatedRun, ih hreset, driveStepEn_of_eq hen, hrun, List.count_cons_self]

/-- Settles O12: the induction over the levels; and a single move with `step_en` 1 is exec, the moves held at 0 counting for none. -/
theorem steppingEqualsRunning : Obligations.SteppingEqualsRunning := by
  intro c s hr
  refine ⟨fun levels => gatedRun_eq_runWith c levels hr, fun i rest t held hready hdec hexec => ?_⟩
  have hstep : stepWith c s = .next t := (stepWith_of_decode hready hdec).trans hexec
  obtain ⟨-, hrun, hen⟩ := hready
  rw [gatedRun_eq_runWith c _ hr, driveStepEn_of_eq hen, List.count_cons_self, runWith_succ _ hrun hstep,
    List.count_replicate]
  rfl

end Sys2Proof.Machine
end

section
/-! Proofs about what no move reads: the output stream and the flags G and L (10_state.md). -/

namespace Sys2Proof.Machine

variable {c : Config} {s t : State} {i : Instr}

/-- The same state with more output in front and other flags: what no instruction but CMP looks at, where the flag `E` is kept. -/
def State.overlay (earlier : List Byte) (w : Flags → Flags) (s : State) : State :=
  { s with out := earlier ++ s.out, flags := w s.flags }

/-- The ALU passes the flags on (R81): all operations but CMP, and CMP where they are not changed. -/
theorem aluApply_map_flags {op : AluOp} {a b : Reg} {x x' : Regs} {fl fl' : Flags} {w : Flags → Flags}
    (hw : op = .cmp → w = id) (h : aluApply op a b x fl = .ok x' fl') : aluApply op a b x (w fl) = .ok x' (w fl') := by
  cases op
  case cmp => rw [hw rfl]; exact h
  case not =>
    simp only [aluApply, aluNot] at h ⊢
    split at h <;> cases h
    exact dif_pos ‹_›
  case mod =>
    simp only [aluApply, aluMod] at h ⊢
    split at h <;> cases h
    exact if_neg ‹_›
  all_goals cases h; rfl

/-- Two states alike in registers, `pc` and the flag `E` fail an instruction's checks alike: both raise the same fatal condition, or
both have the instruction's effect. -/
theorem exec_checked_alike {s' : State} (hregs : s'.regs = s.regs) (hpc : s'.pc = s.pc) (he : s'.flags.e = s.flags.e)
    (h : exec i s = .next t) : (∃ cause, t = raiseFatal cause s ∧ exec i s' = .next (raiseFatal cause s')) ∨
      (Effect s i t ∧ ∀ t', Effect s' i t' → exec i s' = .next t') := by
  have hfault : addressFault i.mnemonic s'.flags.e s'.pc = addressFault i.mnemonic s.flags.e s.pc := by rw [hpc, he]
  have hreg : ∀ r, s'.getReg r = s.getReg r := fun r => congrArg (readReg · r) hregs
  cases exec_next h with
  | address hc ht => exact .inl ⟨_, ht, exec_addressFault (hfault.trans hc)⟩
  | index hc hbad ht =>
    refine .inl ⟨_, ht, exec_bad_index (hfault.trans hc) ?_⟩
    cases hbad with
    | operand hwf => exact .operand hwf
    | pointer ha h8 => exact .pointer ha (by rwa [hreg])
  | divide hc hwf hi hb h0 ht =>
    exact .inl ⟨_, ht, exec_of_next (.divide (hfault.trans hc) hwf hi hb (by rwa [hreg]) rfl)⟩
  | effect hc _ heff => exact .inr ⟨heff, fun _ => exec_of_effect (hfault.trans hc)⟩

section Overlay
variable {earlier : List Byte} {w : Flags → Flags} (he : ∀ fl, (w fl).e = fl.e)
include he

/-- The effect of an instruction does not depend on the overlay, and keeps it. -/
theorem Effect.overlay (hw : i.mnemonic = .cmp → w = id) (h : Effect s i t) :
    Effect (s.overlay earlier w) i (t.overlay earlier w) := by
  cases h with
  | ldi ha => exact .ldi ha
  | @prn _ r ha =>
    have hcommit : ((s.emit (s.getReg r)).commitPc (.seq 2)).overlay earlier w =
        ((s.overlay earlier w).emit (s.getReg r)).commitPc (.seq 2) := by
      simp only [State.overlay, State.emit, State.commitPc, List.append_assoc]
    rw [hcommit]
    exact .prn ha
  | hlt => exact .hlt
  | alu hi ha hb hx =>
    obtain ⟨-, -, -, -, hcmp⟩ := aluForm_shape hi
    exact .alu hi ha hb (aluApply_map_flags (fun hop => hw (by rw [hcmp hop]; rfl)) hx)
  | pop ha => exact .pop ha
  | push ha => exact .push ha
  | call ha => exact .call ha
  | ret => exact .ret
  | jmp ha => exact .jmp ha
  | jeqTaken ha hf => exact .jeqTaken ha ((he _).trans hf)
  | jeqNot ha hf => exact .jeqNot ha ((he _).trans hf)
  | jneTaken ha hf => exact .jneTaken ha ((he _).trans hf)
  | jneNot ha hf => exact .jneNot ha ((he _).trans hf)

/-- What an instruction answers does not depend on the overlay, and keeps it: its checks do not look at it either. -/
theorem exec_overlay (hw : i.mnemonic = .cmp → w = id) (h : exec i s = .next t) :
    exec i (s.overlay earlier w) = .next (t.overlay earlier w) := by
  rcases exec_checked_alike (s := s) (s' := s.overlay earlier w) rfl rfl (he s.flags) h with ⟨_, rfl, hexec⟩ | ⟨heff, hexec⟩
  · exact hexec
  · exact hexec _ (heff.overlay he hw)

/-- The fetch looks at memory, `pc` and the flag `E` alone. -/
theorem fetch_overlay : fetch c (s.overlay earlier w) = fetch c s := by
  unfold fetch
  rw [show (s.overlay earlier w).flags.e = s.flags.e from he s.flags]
  rfl

/-- A step does not depend on the overlay, unless it is a CMP, and keeps it. -/
theorem stepRunning_overlay (hw : (∃ i, fetch c s = .instr i ∧ i.mnemonic = .cmp) → w = id) (h : stepRunning c s = .next t) :
    stepRunning c (s.overlay earlier w) = .next (t.overlay earlier w) := by
  unfold stepRunning at h ⊢
  rw [fetch_overlay he]
  split at h
  · unfold unknownOpcodeStep at h ⊢
    split at h <;> cases h <;> rfl
  · cases h; rfl
  · rename_i i hf
    exact exec_overlay he (fun hi => hw ⟨i, hf, hi⟩) h

/-- A move with `reset` 0 does not depend on the overlay, unless it is a CMP, and keeps it. -/
theorem stepWith_overlay (hr : s.resetIn = false)
    (hw : s.stepEn = true → (∃ i, fetch c s = .instr i ∧ i.mnemonic = .cmp) → w = id) (h : stepWith c s = .next t) :
    stepWith c (s.overlay earlier w) = .next (t.overlay earlier w) := by
  rcases stepWith_next h with ⟨hr', -⟩ | ⟨-, hrun, hen, rfl⟩ | ⟨⟨-, hrun, hen⟩, h⟩
  · exact absurd (hr.symm.trans hr') nofun
  · exact stepEnableLowHoldsTheState c (t.overlay earlier w) hr hrun hen
  · exact (stepWith_ready (s := s.overlay earlier w) ⟨hr, hrun, hen⟩).trans (stepRunning_overlay he (hw hen) h)

end Overlay

/-- Settles O47: more output in front is an overlay that keeps all flags. -/
theorem outputIsNeverRead : Obligations.OutputIsNeverRead :=
  fun _ _ _ _ hr h => stepWith_overlay (fun _ => rfl) hr (fun _ _ => rfl) h

/-- CMP does not look at `G` and `L`: its effect writes over them, and a fatal condition keeps them. -/
theorem exec_cmp_withGreaterLess (g l : Bool) (hi : i.mnemonic = .cmp) (h : exec i s = .next t) :
    exec i (withGreaterLess s g l) = .next t ∨ exec i (withGreaterLess s g l) = .next (withGreaterLess t g l) := by
  rcases exec_checked_alike (s := s) (s' := withGreaterLess s g l) rfl rfl rfl h with ⟨_, rfl, hexec⟩ | ⟨heff, hexec⟩
  · exact .inr hexec
  · refine .inl (hexec t ?_)
    cases i <;> cases hi
    cases heff with
    | alu hform ha hb hx =>
      cases hform
      cases hx
      exact .alu rfl ha hb rfl

/-- Other values of `G` and `L` are an overlay. -/
theorem withGreaterLess_eq_overlay (s : State) (g l : Bool) :
    withGreaterLess s g l = s.overlay [] fun fl => { fl with g := g, l := l } := rfl

/-- A step does not look at `G` and `L`. -/
theorem stepRunning_withGreaterLess (g l : Bool) (h : stepRunning c s = .next t) :
    stepRunning c (withGreaterLess s g l) = .next t ∨
      stepRunning c (withGreaterLess s g l) = .next (withGreaterLess t g l) := by
  by_cases hcmp : ∃ i, fetch c s = .instr i ∧ i.mnemonic = .cmp
  · obtain ⟨i, hf, hi⟩ := hcmp
    have hf' : fetch c (withGreaterLess s g l) = .instr i := (fetch_overlay (earlier := []) fun _ => rfl).trans hf
    simp only [stepRunning, hf] at h
    simp only [stepRunning, hf']
    exact exec_cmp_withGreaterLess g l hi h
  · rw [withGreaterLess_eq_overlay, withGreaterLess_eq_overlay]
    exact .inr (stepRunning_overlay (fun _ => rfl) (fun hi => absurd hi hcmp) h)

/-- A block stops only where a HALTED machine is not reset (R70). -/
theorem halted_of_stepWith_fault {r : Fault} (h : stepWith c s = .fault r) : s.resetIn = false ∧ s.run = .halted := by
  unfold stepWith at h
  split at h
  · cases h
  · rename_i hr
    split at h
    · rename_i hrun
      exact ⟨Bool.eq_false_iff.mpr hr, hrun⟩
    · split at h
      · obtain ⟨t, ht⟩ := stepRunning_total c s
        rw [ht] at h
        cases h
      · cases h

/-- Settles O46: other values of `G` and `L` are an overlay, which every move but a reset and a CMP keeps; the reset and CMP's effect
write over it. -/
theorem greaterAndLessAreNeverRead : Obligations.GreaterAndLessAreNeverRead := by
  refine fun c s g l => ⟨fun t h => ?next, fun r h => ?fault⟩
  case fault =>
    obtain ⟨hr, hrun⟩ := halted_of_stepWith_fault h
    exact stepWith_halted (s := withGreaterLess s g l) c hr hrun
  case next =>
    rcases stepWith_next h with ⟨hr, rfl⟩ | ⟨hr, hrun, hen, rfl⟩ | ⟨hready, h⟩
    · exact .inl (if_pos hr)
    · exact .inr (stepEnableLowHoldsTheState c (withGreaterLess t g l) hr hrun hen)
    · rw [stepWith_ready (s := withGreaterLess s g l) hready]
      exact stepRunning_withGreaterLess g l h

end Sys2Proof.Machine
end

section
/-! Proofs about what crosses the edge of the block: the output events and the memory transactions of a step account for its
change of the output and of memory. -/

namespace Sys2Proof.Machine

variable {c : Config} {s t : State} {i : Instr}

/-- PRN's byte is its register's. -/
theorem emittedBy_eq_some {v : Byte} (h : emittedBy i s = some v) :
    ∃ (a : Byte) (ra : Reg), i = .prn a ∧ a.toNat = ra.val ∧ v = s.getReg ra := by
  cases i
  case prn a =>
    simp only [emittedBy] at h
    split at h <;> cases h
    exact ⟨a, _, rfl, rfl, rfl⟩
  all_goals cases h

/-- An instruction with a bad index emits nothing. -/
theorem BadIndex.emittedBy_eq_none (h : BadIndex s i) : emittedBy i s = none := by
  refine Option.eq_none_iff_forall_ne_some.mpr fun v hv => ?_
  obtain ⟨a, ra, rfl, ha, -⟩ := emittedBy_eq_some hv
  cases h with
  | operand hw => exact absurd (hw.symm.trans (isRegisterIndex_of_reg ha.symm)) nofun

/-- Past the address check an instruction's output is the byte it emits, if any. -/
theorem exec_out_eq (hc : addressFault i.mnemonic s.flags.e s.pc = false) (h : exec i s = .next t) :
    t.out = s.out ++ (emittedBy i s).toList := by
  cases exec_next h with
  | address hc' => exact absurd (hc.symm.trans hc') nofun
  | index _ hbad ht => rw [ht, hbad.emittedBy_eq_none]; exact (List.append_nil _).symm
  | divide _ _ hi _ _ ht => rw [ht, hi]; exact (List.append_nil _).symm
  | effect _ _ he => exact he.out_eq

/-- An output event is the byte of the instruction fetched. -/
theorem outEvent_eq_some {v : Byte} (h : outEvent c s = some v) : ∃ i, fetch c s = .instr i ∧ emittedBy i s = some v := by
  unfold outEvent at h
  split at h
  · split at h
    · cases h
    · cases h
    · exact ⟨_, by assumption, h⟩
  · cases h

/-- A step's output is its output event (R85). -/
theorem stepRunning_out (hready : s.Ready) (h : stepRunning c s = .next t) : t.out = s.out ++ (outEvent c s).toList := by
  simp only [outEvent, if_pos hready]
  rcases stepRunning_next h with ⟨hf, -, rfl⟩ | ⟨hf, -, rfl⟩ | ⟨hf, rfl⟩ | ⟨i, hf, h⟩ <;> rw [hf]
  case inr.inr.inr =>
    obtain ⟨-, hc, -⟩ := fetch_instr hf
    exact exec_out_eq hc h
  all_goals exact (List.append_nil _).symm

/-- Settles O48: the output of a step is its event, and the event is a fetched PRN's. -/
theorem outputGrowsByPrnOnly : Obligations.OutputGrowsByPrnOnly := by
  refine fun c s t hr h => ⟨?out, fun v hv => ?prn⟩
  case out =>
    rcases stepWith_next h with ⟨hr', -⟩ | ⟨-, -, hen, rfl⟩ | ⟨hready, h⟩
    · exact absurd (hr.symm.trans hr') nofun
    · rw [outEvent, if_neg fun ⟨_, _, hen'⟩ => absurd (hen.symm.trans hen') nofun]
      exact (List.append_nil _).symm
    · exact stepRunning_out hready h
  case prn =>
    obtain ⟨i, hf, hi⟩ := outEvent_eq_some hv
    obtain ⟨a, ra, rfl, ha, rfl⟩ := emittedBy_eq_some hi
    obtain ⟨rest, hdec⟩ := decode_of_fetch hf
    exact ⟨a, ra, rest, hdec, ha, rfl⟩

/-- Transactions that are reads of the state's bytes, with at most one write after them. -/
def ReadsThenWrite (s : State) (txns : List BusTxn) : Prop :=
  ∃ (addrs : List Byte) (last : List BusTxn), txns = addrs.map (readTxn s) ++ last ∧
    (last = [] ∨ ∃ addr wdata, last = [.write addr wdata])

theorem ReadsThenWrite.nil : ReadsThenWrite s [] := ⟨[], [], rfl, .inl rfl⟩

/-- More reads in front are reads. -/
theorem ReadsThenWrite.reads_append (addrs : List Byte) {txns : List BusTxn} (h : ReadsThenWrite s txns) :
    ReadsThenWrite s (addrs.map (readTxn s) ++ txns) := by
  obtain ⟨addrs', last, rfl, hlast⟩ := h
  exact ⟨addrs ++ addrs', last, by rw [List.map_append, List.append_assoc], hlast⟩

/-- A read carries the byte of its cell. -/
theorem ReadsThenWrite.rdata_eq {txns : List BusTxn} (h : ReadsThenWrite s txns) {addr rdata : Byte}
    (hmem : BusTxn.read addr rdata ∈ txns) : rdata = s.memRead addr := by
  obtain ⟨addrs, last, rfl, hlast⟩ := h
  rcases List.mem_append.mp hmem with hread | hread
  · obtain ⟨_, -, heq⟩ := List.mem_map.mp hread
    cases heq
    rfl
  · rcases hlast with rfl | ⟨_, _, rfl⟩
    · cases hread
    · cases List.mem_singleton.mp hread

/-- A write stands nowhere but last. -/
theorem ReadsThenWrite.no_write_dropLast {txns : List BusTxn} (h : ReadsThenWrite s txns) {addr wdata : Byte} :
    BusTxn.write addr wdata ∉ txns.dropLast := by
  obtain ⟨addrs, last, rfl, hlast⟩ := h
  have hreads : BusTxn.write addr wdata ∉ addrs.map (readTxn s) := by
    intro hmem
    obtain ⟨_, -, heq⟩ := List.mem_map.mp hmem
    cases heq
  rcases hlast with rfl | ⟨_, _, rfl⟩
  · rw [List.append_nil]
    exact fun hmem => hreads (List.mem_of_mem_dropLast hmem)
  · rwa [List.dropLast_concat]

/-- Reads leave memory as it is. -/
theorem foldl_applyTxn_reads (s : State) (addrs : List Byte) (m : List Host.Cell) :
    (addrs.map (readTxn s)).foldl applyTxn m = m := by
  induction addrs with
  | nil => rfl
  | cons _ _ ih => exact ih

/-- The operand fetches are reads (R38). -/
theorem operandReads_eq (m : Mnemonic) (s : State) : ∃ addrs : List Byte, operandReads m s = addrs.map (readTxn s) := by
  unfold operandReads
  split
  · exact ⟨[], rfl⟩
  · exact ⟨[_], rfl⟩
  all_goals exact ⟨[_, _], rfl⟩

/-- The stack access is one read or one write (R38). -/
theorem dataTxns_readsThenWrite (i : Instr) (s : State) : ReadsThenWrite s (dataTxns i s) := by
  cases i
  case pop | ret => exact ⟨[s.sp], [], rfl, .inl rfl⟩
  case push | call => exact ⟨[], _, rfl, .inr ⟨_, _, rfl⟩⟩
  all_goals exact .nil

/-- The transactions after the opcode fetch (R38). -/
theorem ReadsThenWrite.instr (i : Instr) (s : State) :
    ReadsThenWrite s (operandReads i.mnemonic s ++ if i.wellFormed then dataTxns i s else []) := by
  obtain ⟨addrs, hreads⟩ := operandReads_eq i.mnemonic s
  rw [hreads]
  split
  · exact (dataTxns_readsThenWrite i s).reads_append addrs
  · exact ReadsThenWrite.nil.reads_append addrs

/-- All transactions of a step: the opcode fetch, and what comes after it (R38). -/
theorem busOf_readsThenWrite (hready : s.Ready) : ReadsThenWrite s (busOf c s) := by
  rw [busOf, if_pos hready]
  cases hf : fetch c s with
  | unknown | outOfRange => exact ReadsThenWrite.nil.reads_append [s.pc]
  | instr i => exact (ReadsThenWrite.instr i s).reads_append [s.pc]

/-- The byte PUSH stores is its register's, read after the decrement. -/
theorem pushedByte_eq {a : Byte} {r : Reg} (ha : r.val = a.toNat) : pushedByte a s = s.decSp.getReg r := by
  have hr : (⟨a.toNat, ha ▸ r.isLt⟩ : Reg) = r := Fin.ext ha.symm
  exact (dif_pos (ha ▸ r.isLt)).trans (congrArg _ hr)

/-- An effect's change of memory is its stack access. -/
theorem Effect.mem_eq_txns (h : Effect s i t) : t.mem = (dataTxns i s).foldl applyTxn s.mem := by
  cases h with
  | push ha => rw [dataTxns, pushedByte_eq ha]; rfl
  | alu hi => cases i <;> cases hi <;> rfl
  | _ => rfl

/-- Past the address check an instruction's change of memory is its stack access, where its operands are registers. -/
theorem exec_mem_eq_txns (hc : addressFault i.mnemonic s.flags.e s.pc = false) (h : exec i s = .next t) :
    t.mem = (if i.wellFormed then dataTxns i s else []).foldl applyTxn s.mem := by
  cases exec_next h with
  | address hc' => exact absurd (hc.symm.trans hc') nofun
  | index _ hbad ht =>
    subst ht
    cases hbad with
    | operand hw => rw [hw]; rfl
    | pointer => split <;> rfl
  | divide _ _ hi _ _ ht => subst hi ht; split <;> rfl
  | effect _ hw he => rw [if_pos hw, he.mem_eq_txns]

/-- A step's change of memory is its transactions. -/
theorem stepRunning_mem (hready : s.Ready) (h : stepRunning c s = .next t) : t.mem = (busOf c s).foldl applyTxn s.mem := by
  rw [busOf, if_pos hready, List.foldl_cons]
  rcases stepRunning_next h with ⟨hf, -, rfl⟩ | ⟨hf, -, rfl⟩ | ⟨hf, rfl⟩ | ⟨i, hf, h⟩ <;> rw [hf]
  case inr.inr.inr =>
    obtain ⟨-, hc, -⟩ := fetch_instr hf
    obtain ⟨addrs, hreads⟩ := operandReads_eq i.mnemonic s
    rw [exec_mem_eq_txns hc h, List.foldl_append, hreads, foldl_applyTxn_reads]
    rfl
  all_goals rfl

/-- Settles O50: the transactions are reads with at most one write after them, and folding them over memory is the step's change. -/
theorem transactionsAreTheMemoryAccesses : Obligations.TransactionsAreTheMemoryAccesses := by
  intro c s t hready h
  have hbus := busOf_readsThenWrite (c := c) hready
  refine ⟨stepRunning_mem hready ((stepWith_ready hready).symm.trans h), fun _ _ => hbus.rdata_eq, ?first,
    fun _ _ => hbus.no_write_dropLast⟩
  case first =>
    rw [busOf, if_pos hready]
    rfl

end Sys2Proof.Machine
end
